-- ==== Sys2Proof/Word.lean ====
section
/-! DEFINITION. The word, byte and bit-sequence types of 00_scope.md R13 and R14, and nothing else. -/

namespace Sys2Proof

/-- A word: 32 bits, bit 31 the most significant (00_scope.md R14). -/
abbrev Word := BitVec 32

/-- A byte: an integer in 0..255 (00_scope.md R14). -/
abbrev Byte := BitVec 8

/-- A bit sequence (00_scope.md R13, 40_bitvector_and_hash.md R80, R81): index 0 is the first element and the length is
part of its identity. An element is a `Bool`, so a value outside 0 and 1 cannot occur (10_state.md R39); the check of
R86 for wider elements is `Sys2Proof.Machine.checkBits`. -/
abbrev BitSeq := List Bool

/-- The sequence of `n` zero bits (40_bitvector_and_hash.md R83 writes it zeros(n)). -/
def zeros (n : Nat) : BitSeq := List.replicate n false

end Sys2Proof
end

