-- ==== Sys2Proof/Syntax.lean ====
section
/-! DEFINITION. The thirteen commands of the ASI-CE command set version 1: one constructor per row of
spec/opcode_table.json (30_encoding.md R66). -/

namespace Sys2Proof

/-- A command. Operands are implicit (the registers A, B, NLEN, R); the only immediate is DERIVE's round index, a
natural number here and checked to be an encodable one by `Instr.WellFormed` (30_encoding.md R65, R67). -/
inductive Instr where
  /-- EXPAND, `expand(ser(A.seq), NLEN)` (40_bitvector_and_hash.md R98). -/
  | expand
  /-- GEN, `GEN(A.seq)` (41_keygen_and_subkey.md R106). -/
  | gen
  /-- DERIVE, `deriveSubkey(A.seq, RIDX)` (41_keygen_and_subkey.md R109). -/
  | derive (ridx : Nat)
  /-- SUB, `substitute(B.seq)` (42_sbox.md R121). -/
  | sub
  /-- UNSUB, `unsubstitute(B.seq)` (42_sbox.md R122). -/
  | unsub
  /-- PERM, `permute(B.seq)` (43_pbox.md R131). -/
  | perm
  /-- UNPERM, `unpermute(B.seq)` (43_pbox.md R132). -/
  | unperm
  /-- RNDF, `roundForward(B.seq, A.seq)` (44_round.md R138). -/
  | rndf
  /-- RNDI, `roundInverse(B.seq, A.seq)` (44_round.md R139). -/
  | rndi
  /-- ENC, `ENC(A.seq, B.seq)` (45_enc_dec.md R143). -/
  | enc
  /-- DEC, `DEC(A.seq, B.seq)` (45_enc_dec.md R144). -/
  | dec
  /-- MVA, A and ALEN from R and RLEN (46_transfer.md R150). -/
  | mva
  /-- MVB, B and BLEN from R and RLEN (46_transfer.md R151). -/
  | mvb
deriving DecidableEq, Repr

end Sys2Proof
end

