-- ==== Sys2Proof/WellFormed.lean ====
section
/-! DEFINITION. Which terms of `Instr` are commands of the hardware. -/

namespace Sys2Proof

/-- A command is well formed when its immediate has an encoding: RIDX is an unsigned 8-bit field, 0..255
(30_encoding.md R67, R72). No other command has an operand to check. -/
def Instr.wellFormed : Instr → Bool
  | .expand => true
  | .gen => true
  | .derive ridx => decide (ridx ≤ 255)
  | .sub => true
  | .unsub => true
  | .perm => true
  | .unperm => true
  | .rndf => true
  | .rndi => true
  | .enc => true
  | .dec => true
  | .mva => true
  | .mvb => true

/-- `Instr.wellFormed` as a decidable proposition. -/
abbrev Instr.WellFormed (i : Instr) : Prop := i.wellFormed = true

end Sys2Proof
end

