-- ==== Sys2Proof/Decode.lean ====
section
/-! DEFINITION. Decoding a command word (30_encoding.md R65, R67, R68, R69), the encoder written from the same table
(R66, R72), and the opcode table itself as rows of a mask and a match. -/

namespace Sys2Proof

/-- Why a word is no command (30_encoding.md R69). -/
inductive DecodeError where
  /-- A reserved bit, 31..16, is not zero. -/
  | reservedBits
  /-- RIDX is not zero outside DERIVE. -/
  | roundIndexNotZero
  /-- OP selects no command. -/
  | unknownOpcode
deriving DecidableEq, Repr

/-- OP = w[7:0] (R65). -/
def opField (w : Word) : BitVec 8 := w.extractLsb' 0 8

/-- RIDX = w[15:8] (R65). -/
def ridxField (w : Word) : BitVec 8 := w.extractLsb' 8 8

/-- The reserved field w[31:16] (R65). -/
def reservedField (w : Word) : BitVec 16 := w.extractLsb' 16 16

/-- The commands other than DERIVE by their OP value (R66). -/
def plainCommand (op : BitVec 8) : Except DecodeError Instr :=
  match op.toNat with
  | 0x01 => .ok .gen
  | 0x02 => .ok .enc
  | 0x03 => .ok .dec
  | 0x10 => .ok .expand
  | 0x20 => .ok .sub
  | 0x21 => .ok .unsub
  | 0x22 => .ok .perm
  | 0x23 => .ok .unperm
  | 0x30 => .ok .rndf
  | 0x31 => .ok .rndi
  | 0x40 => .ok .mva
  | 0x41 => .ok .mvb
  | _ => .error .unknownOpcode

/-- `Decode(w)` of R68, its tests in the order the rule gives them; total on all 2^32 words. -/
def decode (w : Word) : Except DecodeError Instr :=
  if reservedField w ≠ 0 then .error .reservedBits
  else if opField w = 0x11 then .ok (.derive (ridxField w).toNat)
  else if ridxField w ≠ 0 then .error .roundIndexNotZero
  else plainCommand (opField w)

/-- OP of a command (R66). -/
def opcodeOf : Instr → BitVec 8
  | .gen => 0x01
  | .enc => 0x02
  | .dec => 0x03
  | .expand => 0x10
  | .derive _ => 0x11
  | .sub => 0x20
  | .unsub => 0x21
  | .perm => 0x22
  | .unperm => 0x23
  | .rndf => 0x30
  | .rndi => 0x31
  | .mva => 0x40
  | .mvb => 0x41

/-- RIDX of a command: DERIVE's round index, zero in every other command (R65). -/
def ridxOf : Instr → BitVec 8
  | .derive ridx => BitVec.ofNat 8 ridx
  | .gen | .enc | .dec | .expand | .sub | .unsub | .perm | .unperm | .rndf | .rndi | .mva | .mvb => 0

/-- The command word: 16 reserved zero bits, RIDX, OP (R65, R72). -/
def encode (i : Instr) : Word := (0 : BitVec 16) ++ ridxOf i ++ opcodeOf i

/-- The instruction this decoder reads from the low `nbits` bits of `w`. A command is one 32-bit word that the host
writes in one access, so a word's bits are the table's bits (notes/assumptions/8). -/
def decodeTableWord (nbits w : Nat) : Option Instr :=
  (decode (BitVec.ofNat 32 (w % 2 ^ nbits))).toOption

/-- One row of spec/opcode_table.json. -/
structure OpcodeRow where
  mnemonic : String
  pattern : Word
  mask : Word
deriving DecidableEq, Repr

/-- A word selects a row when `(w AND mask) == match` (R68). -/
def OpcodeRow.selects (row : OpcodeRow) (w : Word) : Bool := w &&& row.mask == row.pattern

/-- spec/opcode_table.json, its thirteen rows in its order. -/
def opcodeTable : List OpcodeRow :=
  [ ⟨"EXPAND", 0x00000010, 0xFFFFFFFF⟩,
    ⟨"GEN", 0x00000001, 0xFFFFFFFF⟩,
    ⟨"DERIVE", 0x00000011, 0xFFFF00FF⟩,
    ⟨"SUB", 0x00000020, 0xFFFFFFFF⟩,
    ⟨"UNSUB", 0x00000021, 0xFFFFFFFF⟩,
    ⟨"PERM", 0x00000022, 0xFFFFFFFF⟩,
    ⟨"UNPERM", 0x00000023, 0xFFFFFFFF⟩ ] ++
  [ ⟨"RNDF", 0x00000030, 0xFFFFFFFF⟩,
    ⟨"RNDI", 0x00000031, 0xFFFFFFFF⟩,
    ⟨"ENC", 0x00000002, 0xFFFFFFFF⟩,
    ⟨"DEC", 0x00000003, 0xFFFFFFFF⟩,
    ⟨"MVA", 0x00000040, 0xFFFFFFFF⟩,
    ⟨"MVB", 0x00000041, 0xFFFFFFFF⟩ ]

/-- The table's name for a command (30_encoding.md R66). -/
def mnemonicOf : Instr → String
  | .expand => "EXPAND"
  | .gen => "GEN"
  | .derive _ => "DERIVE"
  | .sub => "SUB"
  | .unsub => "UNSUB"
  | .perm => "PERM"
  | .unperm => "UNPERM"
  | .rndf => "RNDF"
  | .rndi => "RNDI"
  | .enc => "ENC"
  | .dec => "DEC"
  | .mva => "MVA"
  | .mvb => "MVB"

end Sys2Proof
end

