-- ==== Sys2Proof/Config.lean ====
section
/-! DEFINITION. What one engine is built with: the fixed and decided numbers of 00_scope.md R5 to R8, and the open parameters
SBOX, PBOX and LMAX as a configuration that carries the constraints the spec puts on them (R9, R10, R11). The values this
hardware takes for them stand in Sys2Proof/Machine/Tables.lean. The fourth open parameter, BASE, is the platform's and
stands in the state. -/

namespace Sys2Proof

/-- HLEN, the digest length in bits (R5). -/
abbrev Config.hlen : Nat := 256

/-- B, the S-box group size in bits (R6). -/
abbrev Config.groupSize : Nat := 4

/-- NR, the number of rounds (R7). -/
abbrev Config.rounds : Nat := 4

/-- KEYMULT: a key has four times its seed's length (R8). -/
abbrev Config.keyMult : Nat := 4

/-- LMAX, the capacity in bits of each wide register, open: a multiple of 32 with 32 <= LMAX <= 65504 (R11). -/
structure Capacity where
  lmax : Nat
  multiple : lmax % 32 = 0
  at_least : 32 ≤ lmax
  at_most : lmax ≤ 65504
deriving DecidableEq, Repr

/-- NW, the number of 32-bit words of a wide register (10_state.md R20). -/
def Capacity.nw (c : Capacity) : Nat := c.lmax / 32

/-- SIZE, the extent of the register space in bytes (20_memory.md R45). -/
def Capacity.size (c : Capacity) : Nat := 0x40 + 12 * c.nw

/-- VER of the ID register: ASI-CE command set version 1 (10_state.md R29). -/
abbrev Config.version : Nat := 1

/-- A group code, 0..15 (42_sbox.md R115, R117). -/
abbrev Code := Fin 16

/-- SBOX with the proof that it is a bijection on 0..15 (00_scope.md R9, 42_sbox.md R120): the sixteen values are
pairwise different. -/
structure SBox where
  table : Vector Code 16
  bijective : ∀ x y : Code, table.get x = table.get y → x = y

/-- PBOX: the family `perm` with its inverse family, and for every valid block length the three properties of
00_scope.md R10 (a bijection on 0..L-1, fixed because it is a function of L and i alone, not the identity). -/
structure PBox where
  perm : Nat → Nat → Nat
  inv : Nat → Nat → Nat
  perm_lt : ∀ L i, 1 ≤ L → L % 4 = 0 → i < L → perm L i < L
  inv_lt : ∀ L p, 1 ≤ L → L % 4 = 0 → p < L → inv L p < L
  inv_perm : ∀ L i, 1 ≤ L → L % 4 = 0 → i < L → inv L (perm L i) = i
  perm_inv : ∀ L p, 1 ≤ L → L % 4 = 0 → p < L → perm L (inv L p) = p
  not_identity : ∀ L, 1 ≤ L → L % 4 = 0 → ∃ i, i < L ∧ perm L i ≠ i

/-- A configuration of the engine: the two open tables and the capacity. A table that fails its check has no configuration
and therefore no machine (60_exceptions.md R167). -/
structure Config where
  sbox : SBox
  pbox : PBox
  capacity : Capacity

end Sys2Proof
end

