-- ==== Sys2Proof/Machine/Tables.lean ====
section
/-! DEFINITION. The open parameters as this hardware takes them, with the proofs a configuration carries (42_sbox.md R115, R120,
43_pbox.md R125 to R127, 00_scope.md R11), and the inverse S-box table (R116). -/

namespace Sys2Proof.Machine

/-- `SBOX[0..15]` of this hardware (42_sbox.md R115). -/
def sboxTable : Vector Code 16 :=
  #v[0xC, 0x5, 0x6, 0xB, 0x9, 0x0, 0xA, 0xD, 0x3, 0xE, 0xF, 0x8, 0x4, 0x7, 0x1, 0x2]

/-- The sixteen values are pairwise different (42_sbox.md R120). -/
theorem sboxTable_bijective : ∀ x y : Code, sboxTable.get x = sboxTable.get y → x = y := by
  decide +kernel

/-- `SBOX[x]`. -/
def subCode (b : SBox) (x : Code) : Code := b.table.get x

/-- `INV_SBOX[y]`: the x with `SBOX[x] = y`, computed from SBOX and never chosen independently (42_sbox.md R116). -/
def unsubCode (b : SBox) (y : Code) : Code :=
  ((List.finRange 16).find? fun x => b.table.get x == y).getD 0

/-- `perm_L(i)` of this hardware (43_pbox.md R125), with G = L / 4 groups. -/
def permIndex (L i : Nat) : Nat := ((i % 4) * (L / 4) + i / 4 + 1) % L

/-- `inv_perm_L(p)` of this hardware (43_pbox.md R126). -/
def invPermIndex (L p : Nat) : Nat :=
  4 * (((p + L - 1) % L) % (L / 4)) + ((p + L - 1) % L) / (L / 4)

theorem permIndex_lt (L i : Nat) (hL : 1 ≤ L) (_h4 : L % 4 = 0) (_hi : i < L) : permIndex L i < L :=
  Nat.mod_lt _ hL

/-- Rotating one place on and one place back (43_pbox.md R125, R126). -/
theorem rotate_back (L q : Nat) (hq : q < L) : ((q + 1) % L + L - 1) % L = q := by
  rcases Nat.lt_or_ge (q + 1) L with h | h
  · rw [Nat.mod_eq_of_lt h, show q + 1 + L - 1 = q + L by omega, Nat.add_mod_right, Nat.mod_eq_of_lt hq]
  · rw [show q + 1 = L by omega, Nat.mod_self, Nat.mod_eq_of_lt (by omega)]
    omega

/-- Rotating one place back and one place on. -/
theorem rotate_on (L p : Nat) (hp : p < L) : ((p + L - 1) % L + 1) % L = p := by
  rcases Nat.eq_zero_or_pos p with rfl | h
  · rw [Nat.mod_eq_of_lt (a := 0 + L - 1) (by omega), show 0 + L - 1 + 1 = L by omega, Nat.mod_self]
  · rw [show p + L - 1 = (p - 1) + L by omega, Nat.add_mod_right, Nat.mod_eq_of_lt (a := p - 1) (by omega),
      Nat.mod_eq_of_lt (by omega)]
    omega

theorem invPermIndex_permIndex (L i : Nat) (hL : 1 ≤ L) (h4 : L % 4 = 0) (hi : i < L) :
    invPermIndex L (permIndex L i) = i := by
  obtain ⟨G, rfl⟩ : ∃ G, L = 4 * G := ⟨L / 4, by omega⟩
  have hG : 4 * G / 4 = G := by omega
  have hg : i / 4 < G := by omega
  have hbound : (i % 4) * G + i / 4 < 4 * G := by
    have : (i % 4) * G ≤ 3 * G := Nat.mul_le_mul_right G (by omega)
    omega
  unfold invPermIndex permIndex
  rw [hG, rotate_back _ _ hbound, Nat.mul_comm (i % 4) G, Nat.mul_add_mod, Nat.mod_eq_of_lt hg,
    Nat.mul_add_div (by omega), Nat.div_eq_of_lt hg]
  omega

theorem permIndex_invPermIndex (L p : Nat) (hL : 1 ≤ L) (h4 : L % 4 = 0) (hp : p < L) :
    permIndex L (invPermIndex L p) = p := by
  obtain ⟨G, rfl⟩ : ∃ G, L = 4 * G := ⟨L / 4, by omega⟩
  have hG : 4 * G / 4 = G := by omega
  have hq : (p + 4 * G - 1) % (4 * G) < 4 * G := Nat.mod_lt _ hL
  have hj : (p + 4 * G - 1) % (4 * G) / G < 4 := Nat.div_lt_of_lt_mul (by omega)
  unfold invPermIndex permIndex
  rw [hG, Nat.mul_add_mod, Nat.mod_eq_of_lt hj, Nat.mul_add_div (by omega), Nat.div_eq_of_lt hj]
  simp only [Nat.add_zero, Nat.div_add_mod', rotate_on _ _ hp]

theorem invPermIndex_lt (L p : Nat) (hL : 1 ≤ L) (h4 : L % 4 = 0) (_hp : p < L) :
    invPermIndex L p < L := by
  obtain ⟨G, rfl⟩ : ∃ G, L = 4 * G := ⟨L / 4, by omega⟩
  have hG : 4 * G / 4 = G := by omega
  have hq : (p + 4 * G - 1) % (4 * G) < 4 * G := Nat.mod_lt _ hL
  have hj : (p + 4 * G - 1) % (4 * G) / G < 4 := Nat.div_lt_of_lt_mul (by omega)
  have hr : (p + 4 * G - 1) % (4 * G) % G < G := Nat.mod_lt _ (by omega)
  unfold invPermIndex
  rw [hG]
  omega

/-- `perm_L(0) = 1` for every L >= 4 (43_pbox.md R127(c)). -/
theorem permIndex_not_identity (L : Nat) (hL : 1 ≤ L) (h4 : L % 4 = 0) : ∃ i, i < L ∧ permIndex L i ≠ i := by
  refine ⟨0, hL, ?_⟩
  have : permIndex L 0 = 1 := by
    simp only [permIndex, Nat.zero_mod, Nat.zero_mul, Nat.zero_div, Nat.zero_add]
    exact Nat.mod_eq_of_lt (by omega)
  omega

/-- SBOX of this hardware (42_sbox.md R115). -/
def hardwareSBox : SBox where
  table := sboxTable
  bijective := sboxTable_bijective

/-- PBOX of this hardware (43_pbox.md R125). -/
def hardwarePBox : PBox where
  perm := permIndex
  inv := invPermIndex
  perm_lt := permIndex_lt
  inv_lt := invPermIndex_lt
  inv_perm := invPermIndex_permIndex
  perm_inv := permIndex_invPermIndex
  not_identity := permIndex_not_identity

/-- LMAX of this hardware (00_scope.md R11). -/
def hardwareCapacity : Capacity where
  lmax := 512
  multiple := by decide
  at_least := by decide
  at_most := by decide

/-- The configuration of this hardware. -/
def hardware : Config where
  sbox := hardwareSBox
  pbox := hardwarePBox
  capacity := hardwareCapacity

end Sys2Proof.Machine
end

