-- ==== Sys2Proof/Machine/State.lean ====
section
/-! DEFINITION. The state of one engine (10_state.md R20), the host's accesses that the step performs (20_memory.md R57,
70_reset_and_hazards.md R195), the error kinds, the ways a step can stop, and the state after reset (R38). -/

namespace Sys2Proof.Machine

/-- The error kinds (60_exceptions.md R160). They are values reported in STATUS.ERR, never a stop of the machine. -/
inductive ErrorKind where
  /-- A non-bit element, an empty sequence that must not be empty, or a length that is not a multiple of 4. -/
  | invalidInput
  /-- Two individually valid operand lengths that differ. -/
  | sizeMismatch
  /-- A table fails its bijectivity check when it is built; never produced by a command (R167). -/
  | configurationError
  /-- A length the command reads, or its result length, exceeds LMAX. -/
  | capacityExceeded
  /-- The word written to CMD is no command. -/
  | illegalCommand
deriving DecidableEq, Repr

/-- The STATUS register (10_state.md R28): its two fields. Bits 31:4 are reserved and read as 0, so they hold no state. -/
structure Status where
  done : Bool
  err : BitVec 3
deriving DecidableEq, Repr

/-- A wide register: its words of 32 bits, word 0 first (R20). There are NW of them, the number the state's capacity gives
(`State.Sized`). -/
abbrev WideReg := List Word

/-- One move of the host (70_reset_and_hazards.md R195). The size of an access is in bytes; 4 is the only size the spec
defines, and an access of any other size is refused (20_memory.md R47). The value of a write is one word. -/
inductive HostAction where
  /-- `MemWrite(addr, size, v)`. -/
  | memWrite (addr size : Nat) (v : Word)
  /-- `MemRead(addr, size)`. -/
  | memRead (addr size : Nat)
  /-- The reset of 70_reset_and_hazards.md R190. -/
  | reset
deriving DecidableEq, Repr

/-- The state of one engine. `status` to `rlen` are the registers of R20 that store anything: CMD is not stored (R27) and
ID is a constant (R29, `Sys2Proof.Machine.idWord`). `capacity`, `baseIndex`, `pending` and `returned` are the MODEL'S OWN
fields, not the spec's state (notes/assumptions/1, 2, 3, 4). STATUS stands first because every command sets DONE: two
states are then told apart by their first field. -/
structure State where
  /-- STATUS (R28). -/
  status : Status
  /-- A, the first operand (R21). -/
  a : WideReg
  /-- B, the second operand (R22). -/
  b : WideReg
  /-- R, the result (R23). -/
  r : WideReg
  /-- ALEN, the length of A in bits (R24). -/
  alen : BitVec 16
  /-- BLEN, the length of B in bits (R24). -/
  blen : BitVec 16
  /-- NLEN, the requested output length in bits (R25). -/
  nlen : BitVec 16
  /-- RLEN, the length of R in bits (R26). -/
  rlen : BitVec 16
  /-- The engine's LMAX with its constraints (00_scope.md R11), an open parameter. No step changes it. -/
  capacity : Capacity
  /-- BASE divided by 4: where the platform puts the register space (20_memory.md R45). No step changes it. -/
  baseIndex : Nat
  /-- The host's moves still to be performed, in the order the host issued them (20_memory.md R52). -/
  pending : List HostAction
  /-- The values the host's reads returned, in order. -/
  returned : List Word
deriving DecidableEq, Repr

/-- LMAX of the engine (00_scope.md R11). -/
def State.lmax (s : State) : Nat := s.capacity.lmax

/-- NW of the engine (10_state.md R20). -/
def State.nw (s : State) : Nat := s.capacity.nw

/-- SIZE of the engine's register space (20_memory.md R45). -/
def State.size (s : State) : Nat := s.capacity.size

/-- Every wide register has the NW words of the engine (10_state.md R20). It holds after reset and every step keeps it. -/
structure State.Sized (s : State) : Prop where
  a : s.a.length = s.nw
  b : s.b.length = s.nw
  r : s.r.length = s.nw

/-- BASE, a multiple of 4 by construction (20_memory.md R45). -/
def State.base (s : State) : Nat := 4 * s.baseIndex

/-- Why the machine stops with a fault: never. Every error of this hardware is a code in STATUS.ERR and an empty R, and
the engine is then ready for the next command (60_exceptions.md R164, R166); an internal failure does not exist (R165).
The type has no constructor, so no step can answer a fault. -/
inductive Fault where
deriving DecidableEq, Repr

/-- Why a step is refused. -/
inductive Refusal where
  /-- Raised by `exec` alone, for an instruction that has no meaning yet. Safe: nothing is claimed of it. -/
  | notModelled (mnemonic : String)
  /-- Raised by `locate`: an access whose size is not 4 bytes, which "a model refuses" (20_memory.md R47,
  93_implementation_defined.md U8). Safe: the spec gives it no effect. -/
  | accessWidth
  /-- Raised by `locate`: an access at an address that is no multiple of 4 (R47, U8). Safe, as above. -/
  | accessMisaligned
  /-- Raised by `locate`: an access outside BASE .. BASE+SIZE-1, which does not belong to the engine (R45, R46, U8). Safe,
  as above. -/
  | accessOutside
  /-- Raised by `execDerive` on an ill-formed term alone: a round index above 255 "has no encoding and is not defined"
  (41_keygen_and_subkey.md R108, U10; notes/assumptions/7). Safe, and unreachable from a command word, whose RIDX has 8 bits. -/
  | roundIndexUndefined
deriving DecidableEq, Repr

/-- The state after reset (10_state.md R38): every register is zero, each value stated by the rule. The model's own
fields: LMAX as this hardware takes it (notes/assumptions/1), BASE at 0 (notes/assumptions/2), no host move pending and
nothing returned (notes/assumptions/3, 4). -/
def State.reset : State where
  a := List.replicate hardware.capacity.nw 0
  b := List.replicate hardware.capacity.nw 0
  r := List.replicate hardware.capacity.nw 0
  alen := 0
  blen := 0
  nlen := 0
  rlen := 0
  status := { done := false, err := 0 }
  capacity := hardware.capacity
  baseIndex := 0
  pending := []
  returned := []

end Sys2Proof.Machine
end

