-- ==== Sys2Proof/Machine/Flags.lean ====
section
/-! DEFINITION. STATUS as the host reads it, the error codes, and the checks on lengths that decide STATUS.ERR
(10_state.md R28, 60_exceptions.md R160 to R163). There are no arithmetic flags (10_state.md R35). -/

namespace Sys2Proof.Machine

/-- The numeric code reported in STATUS.ERR (60_exceptions.md R160). -/
def ErrorKind.code : ErrorKind → BitVec 3
  | .invalidInput => 1
  | .sizeMismatch => 2
  | .configurationError => 3
  | .capacityExceeded => 4
  | .illegalCommand => 5

/-- STATUS after a command that ended without error: ERR <- 0, DONE <- 1 (10_state.md R37, 46_transfer.md R150). -/
def Status.completed : Status := { done := true, err := 0 }

/-- STATUS after a command that ended in error kind `k`: ERR <- code(k), DONE <- 1 (60_exceptions.md R164). -/
def Status.failed (k : ErrorKind) : Status := { done := true, err := k.code }

/-- STATUS as a 32-bit word: DONE is bit 0, ERR is bits 3:1, bits 31:4 read as 0 (10_state.md R28). -/
def Status.word (st : Status) : Word := (0 : BitVec 28) ++ st.err ++ BitVec.ofBool st.done

/-- `VALIDLEN(L)`: L >= 1 and L mod 4 = 0 (60_exceptions.md R161). -/
def validLen (n : Nat) : Bool := decide (1 ≤ n) && decide (n % Config.groupSize = 0)

/-- A length that does not fit a wide register of LMAX bits (60_exceptions.md R162). -/
def overCapacity (lmax n : Nat) : Bool := decide (lmax < n)

/-- The checks of EXPAND (40_bitvector_and_hash.md R98). -/
def expandCheck (lmax alen nlen : Nat) : Option ErrorKind :=
  if overCapacity lmax alen || overCapacity lmax nlen then some .capacityExceeded else none

/-- The checks of GEN, in order: the key's length against LMAX, then the empty seed (41_keygen_and_subkey.md R106). -/
def genCheck (lmax alen : Nat) : Option ErrorKind :=
  if overCapacity lmax (Config.keyMult * alen) then some .capacityExceeded
  else if alen = 0 then some .invalidInput
  else none

/-- The check of DERIVE (41_keygen_and_subkey.md R109). -/
def deriveCheck (lmax alen : Nat) : Option ErrorKind :=
  if overCapacity lmax alen then some .capacityExceeded else none

/-- The checks of SUB, UNSUB, PERM and UNPERM, in order (42_sbox.md R121, 43_pbox.md R131). -/
def streamCheck (lmax blen : Nat) : Option ErrorKind :=
  if overCapacity lmax blen then some .capacityExceeded
  else if !validLen blen then some .invalidInput
  else none

/-- The checks of RNDF, RNDI, ENC and DEC, in order (44_round.md R138, 45_enc_dec.md R143). -/
def pairCheck (lmax alen blen : Nat) : Option ErrorKind :=
  if overCapacity lmax alen || overCapacity lmax blen then some .capacityExceeded
  else if !validLen alen || !validLen blen then some .invalidInput
  else if alen ≠ blen then some .sizeMismatch
  else none

end Sys2Proof.Machine
end

