-- ==== Sys2Proof/Machine/Operands.lean ====
section
/-! DEFINITION. The forms an operand takes: a wide register as a bit sequence and back (10_state.md R30, R37, 20_memory.md
R48), the bit-sequence operations (40_bitvector_and_hash.md R83 to R85), and the byte serialisations (R87 to R89). -/

namespace Sys2Proof.Machine

/-- The number whose `n` binary digits are `f 0`, `f 1`, ..., the most significant first: the one bit order of this
hardware (20_memory.md R48). -/
def msbNat (f : Nat → Bool) : Nat → Nat
  | 0 => 0
  | n + 1 => 2 * msbNat f n + (f n).toNat

/-- Bit i of a wide register: bit 31 - (i mod 32) of word i div 32 (10_state.md R21, 20_memory.md R48). -/
def bitOf (x : WideReg) (i : Nat) : Bool := (x.getD (i / 32) 0).getLsbD (31 - i % 32)

/-- The sequence view of a wide register with length `n`, defined for n <= LMAX (10_state.md R30). DESIGN CHOICE past the
register's words: zeros (notes/assumptions/9). -/
def seqOf (x : WideReg) (n : Nat) : BitSeq := (List.range n).map (bitOf x)

/-- Element i of a sequence, 0 past its end: how a short sequence fills a register or a last byte (R37, R87). -/
def bitOrZero (v : BitSeq) (i : Nat) : Bool := v.getD i false

/-- Word k of a sequence: its elements 32k to 32k+31, most significant first, zeros past its end (20_memory.md R48,
30_encoding.md R73). -/
def wordOfBits (v : BitSeq) (k : Nat) : Word :=
  BitVec.ofNat 32 (msbNat (fun j => bitOrZero v (32 * k + j)) 32)

/-- The wide register of `nw` words that holds `v` from bit 0 on, and 0 in every bit past its end (10_state.md R37). -/
def packWords (nw : Nat) (v : BitSeq) : WideReg := (List.range nw).map (wordOfBits v)

/-- `A.seq` (10_state.md R30). -/
def State.aSeq (s : State) : BitSeq := seqOf s.a s.alen.toNat

/-- `B.seq` (10_state.md R30). -/
def State.bSeq (s : State) : BitSeq := seqOf s.b s.blen.toNat

/-- `R.seq` (10_state.md R30). -/
def State.rSeq (s : State) : BitSeq := seqOf s.r s.rlen.toNat

/-- `s XOR t`, element by element, for sequences of equal length (40_bitvector_and_hash.md R83); every caller has checked
the lengths (notes/assumptions/9). -/
def xorSeq (s t : BitSeq) : BitSeq := List.zipWith xor s t

/-- The slice `s[i..j)`, for 0 <= i <= j <= len(s) (40_bitvector_and_hash.md R84, 00_scope.md R13). DESIGN CHOICE outside
that range: what lies past the end is left out, and i > j gives the empty sequence (notes/assumptions/9). -/
def slice (s : BitSeq) (i j : Nat) : BitSeq := (s.drop i).take (j - i)

/-- Group g of a sequence whose length is a multiple of 4, `s[4g .. 4g+4)` (40_bitvector_and_hash.md R84). DESIGN CHOICE
elsewhere: the slice's (notes/assumptions/9). -/
def group (s : BitSeq) (g : Nat) : BitSeq := slice s (4 * g) (4 * g + 4)

/-- Concatenation (40_bitvector_and_hash.md R85). -/
def concatSeq (s t : BitSeq) : BitSeq := s ++ t

/-- `ser(s)`: eight elements to a byte, element 0 the most significant bit of byte 0, a last partial byte completed with
zero bits (40_bitvector_and_hash.md R87). -/
def ser (s : BitSeq) : List Byte :=
  (List.range ((s.length + 7) / 8)).map fun k =>
    BitVec.ofNat 8 (msbNat (fun j => bitOrZero s (8 * k + j)) 8)

/-- `unser(d, n)`: element i is bit 7 - (i mod 8) of byte i div 8, for n <= 8 * len(d) (40_bitvector_and_hash.md R88).
DESIGN CHOICE past the last byte: zeros (notes/assumptions/9). -/
def unser (d : List Byte) (n : Nat) : BitSeq :=
  (List.range n).map fun i => (d.getD (i / 8) 0).getLsbD (7 - i % 8)

/-- `be32(c)` for c < 2^32: four bytes, the most significant first (40_bitvector_and_hash.md R89). DESIGN CHOICE above:
modulo 2^32 (notes/assumptions/9). -/
def be32 (c : Nat) : List Byte :=
  [BitVec.ofNat 8 (c / 2 ^ 24 % 256), BitVec.ofNat 8 (c / 2 ^ 16 % 256), BitVec.ofNat 8 (c / 2 ^ 8 % 256),
    BitVec.ofNat 8 (c % 256)]

/-- A value below 2^64 as eight bytes, the most significant first (40_bitvector_and_hash.md R90). DESIGN CHOICE above: modulo
2^64 (notes/assumptions/9). -/
def be64 (c : Nat) : List Byte := be32 (c / 2 ^ 32) ++ be32 (c % 2 ^ 32)

end Sys2Proof.Machine
end

