-- ==== Sys2Proof/Machine/Ops.lean ====
section
/-! DEFINITION. The operations the commands share: the normal end `WriteResult` (10_state.md R37), the abnormal end `Fail`
(60_exceptions.md R164), which is all an exception of this hardware does, the register transfers (46_transfer.md), the four
shapes of a command (30_encoding.md R74), and the registers as the host reads and writes them (20_memory.md R46, R49).
There is no return from an error: the engine has nothing to return from (60_exceptions.md R166). -/

namespace Sys2Proof.Machine

/-- What `exec` and `step` answer. -/
abbrev Result := Host.Outcome State Fault Refusal

/-- `WriteResult(v)`, for len(v) <= LMAX (10_state.md R37): RLEN is the length of v, R holds v and zeros past it, ERR is 0
and DONE is 1; the operand registers are unchanged. -/
def State.writeResult (s : State) (v : BitSeq) : State :=
  { s with r := packWords s.nw v, rlen := BitVec.ofNat 16 v.length, status := Status.completed }

/-- `Fail(K)` (60_exceptions.md R164): R is emptied, ERR is the code of K and DONE is 1; nothing else changes. This is the
taking of an exception: no register is saved, no mode changes and control goes nowhere. -/
def State.fail (s : State) (k : ErrorKind) : State :=
  { s with r := List.replicate s.nw 0, rlen := 0, status := Status.failed k }

/-- The transfer of MVA: all words of R to A, RLEN to ALEN, ERR 0 and DONE 1 (46_transfer.md R150). -/
def State.moveToA (s : State) : State :=
  { s with a := s.r, alen := s.rlen, status := Status.completed }

/-- The transfer of MVB: all words of R to B, RLEN to BLEN, ERR 0 and DONE 1 (46_transfer.md R151). -/
def State.moveToB (s : State) : State :=
  { s with b := s.r, blen := s.rlen, status := Status.completed }

/-- How a command ends: `Fail` with the first check that fails, else `WriteResult` of its function's value
(30_encoding.md R74). -/
def finish (check : Option ErrorKind) (value : State → BitSeq) (s : State) : Result :=
  match check with
  | some k => .next (s.fail k)
  | none => .next (s.writeResult (value s))

/-- A command whose only operand is B: the shape of SUB, UNSUB, PERM and UNPERM (42_sbox.md R121, 43_pbox.md R131). -/
def streamCommand (f : BitSeq → BitSeq) (s : State) : Result :=
  finish (streamCheck s.lmax s.blen.toNat) (fun s => f s.bSeq) s

/-- A command on the pair A, B, whose function takes A's sequence first: the shape of RNDF, RNDI, ENC and DEC
(44_round.md R138, 45_enc_dec.md R143). -/
def pairCommand (f : BitSeq → BitSeq → BitSeq) (s : State) : Result :=
  finish (pairCheck s.lmax s.alen.toNat s.blen.toNat) (fun s => f s.aSeq s.bSeq) s

/-- The ID register: GRP, ROUNDS, MULT, CAPW and VER in their bits, bits 15:12 zero (10_state.md R29). -/
def idWord (nw : Nat) : Word :=
  BitVec.ofNat 4 Config.version ++ BitVec.ofNat 12 nw ++ BitVec.ofNat 4 0 ++ BitVec.ofNat 4 Config.keyMult ++
    BitVec.ofNat 4 Config.rounds ++ BitVec.ofNat 4 Config.groupSize

/-- What stands at an offset of the register space (20_memory.md R46). -/
inductive Reg where
  | id
  | cmd
  | status
  | alen
  | blen
  | nlen
  | rlen
  | reserved
  | aWord (k : Nat)
  | bWord (k : Nat)
  | rWord (k : Nat)
deriving DecidableEq, Repr

/-- The register at a byte offset from BASE, in an engine of NW words to a wide register, for a multiple of 4 below SIZE
(20_memory.md R46). -/
def regAt (nw off : Nat) : Reg :=
  if off = 0x000 then .id
  else if off = 0x004 then .cmd
  else if off = 0x008 then .status
  else if off = 0x00C then .alen
  else if off = 0x010 then .blen
  else if off = 0x014 then .nlen
  else if off = 0x018 then .rlen
  else if off < 0x040 then .reserved
  else if off < 0x040 + 4 * nw then .aWord ((off - 0x040) / 4)
  else if off < 0x040 + 8 * nw then .bWord ((off - (0x040 + 4 * nw)) / 4)
  else .rWord ((off - (0x040 + 8 * nw)) / 4)

/-- The byte offset of a register from BASE; of the reserved offsets the first (20_memory.md R46). -/
def regOffset (nw : Nat) : Reg → Nat
  | .id => 0x000
  | .cmd => 0x004
  | .status => 0x008
  | .alen => 0x00C
  | .blen => 0x010
  | .nlen => 0x014
  | .rlen => 0x018
  | .reserved => 0x01C
  | .aWord k => 0x040 + 4 * k
  | .bWord k => 0x040 + 4 * nw + 4 * k
  | .rWord k => 0x040 + 8 * nw + 4 * k

/-- The current value of a register, as `MemRead` returns it: a length register in bits 15:0 with zeros above, 0 for the
write-only CMD and for a reserved offset (20_memory.md R46, R49, R57). -/
def readReg (reg : Reg) (s : State) : Word :=
  match reg with
  | .id => idWord s.nw
  | .cmd => 0
  | .status => s.status.word
  | .alen => s.alen.setWidth 32
  | .blen => s.blen.setWidth 32
  | .nlen => s.nlen.setWidth 32
  | .rlen => s.rlen.setWidth 32
  | .reserved => 0
  | .aWord k => s.a.getD k 0
  | .bWord k => s.b.getD k 0
  | .rWord k => s.r.getD k 0

/-- The store of `MemWrite` into a register: a length register takes bits 15:0, a word of A or B takes the whole word, and
a write to a read-only register or a reserved offset is ignored (20_memory.md R46, R49, R57). CMD stores nothing
(10_state.md R27); the command its write starts is `runCommand`. -/
def writeReg (reg : Reg) (v : Word) (s : State) : State :=
  match reg with
  | .alen => { s with alen := v.setWidth 16 }
  | .blen => { s with blen := v.setWidth 16 }
  | .nlen => { s with nlen := v.setWidth 16 }
  | .aWord k => { s with a := s.a.set k v }
  | .bWord k => { s with b := s.b.set k v }
  | .id | .cmd | .status | .rlen | .reserved | .rWord _ => s

/-- The reset of 70_reset_and_hazards.md R190: every register at its value of 10_state.md R38. What is no register stays: the
engine's capacity, where the platform maps it, the host's remaining moves, the values the host has read
(notes/assumptions/5). -/
def State.hostReset (s : State) : State :=
  { State.reset with
    a := List.replicate s.nw 0
    b := List.replicate s.nw 0
    r := List.replicate s.nw 0
    capacity := s.capacity
    baseIndex := s.baseIndex
    pending := s.pending
    returned := s.returned }

end Sys2Proof.Machine
end

