-- ==== Sys2Proof/Machine/Sha256.lean ====
section
/-! DEFINITION. SHA-256 as 40_bitvector_and_hash.md R90 to R95 write it out. -/

namespace Sys2Proof.Machine

/-- `SHR(x, n) = x div 2^n` (R91). -/
def shr (x : Word) (n : Nat) : Word := x >>> n

/-- `ROTR(x, n)` for 0 < n < 32 (R91). DESIGN CHOICE for any other n: x (notes/assumptions/9). -/
def rotr (x : Word) (n : Nat) : Word := (x >>> n) ||| (x <<< (32 - n))

/-- `Ch` (R91). -/
def ch (x y z : Word) : Word := (x &&& y) ^^^ (~~~x &&& z)

/-- `Maj` (R91). -/
def maj (x y z : Word) : Word := (x &&& y) ^^^ (x &&& z) ^^^ (y &&& z)

/-- `BSIG0` (R91). -/
def bsig0 (x : Word) : Word := rotr x 2 ^^^ rotr x 13 ^^^ rotr x 22

/-- `BSIG1` (R91). -/
def bsig1 (x : Word) : Word := rotr x 6 ^^^ rotr x 11 ^^^ rotr x 25

/-- `SSIG0` (R91). -/
def ssig0 (x : Word) : Word := rotr x 7 ^^^ rotr x 18 ^^^ shr x 3

/-- `SSIG1` (R91). -/
def ssig1 (x : Word) : Word := rotr x 17 ^^^ rotr x 19 ^^^ shr x 10

/-- The hash value `H[0..7]`, and in a compression the working variables a to h (R92, R94). -/
structure HashValue where
  h0 : Word
  h1 : Word
  h2 : Word
  h3 : Word
  h4 : Word
  h5 : Word
  h6 : Word
  h7 : Word
deriving DecidableEq, Repr

/-- The initial hash value (R92). -/
def initialHash : HashValue :=
  ⟨0x6a09e667, 0xbb67ae85, 0x3c6ef372, 0xa54ff53a, 0x510e527f, 0x9b05688c, 0x1f83d9ab, 0x5be0cd19⟩

/-- The round constants `K[0..63]` (R92), eight to a line. -/
def roundConstants : List Word :=
  [0x428a2f98, 0x71374491, 0xb5c0fbcf, 0xe9b5dba5, 0x3956c25b, 0x59f111f1, 0x923f82a4, 0xab1c5ed5] ++
  [0xd807aa98, 0x12835b01, 0x243185be, 0x550c7dc3, 0x72be5d74, 0x80deb1fe, 0x9bdc06a7, 0xc19bf174] ++
  [0xe49b69c1, 0xefbe4786, 0x0fc19dc6, 0x240ca1cc, 0x2de92c6f, 0x4a7484aa, 0x5cb0a9dc, 0x76f988da] ++
  [0x983e5152, 0xa831c66d, 0xb00327c8, 0xbf597fc7, 0xc6e00bf3, 0xd5a79147, 0x06ca6351, 0x14292967] ++
  [0x27b70a85, 0x2e1b2138, 0x4d2c6dfc, 0x53380d13, 0x650a7354, 0x766a0abb, 0x81c2c92e, 0x92722c85] ++
  [0xa2bfe8a1, 0xa81a664b, 0xc24b8b70, 0xc76c51a3, 0xd192e819, 0xd6990624, 0xf40e3585, 0x106aa070] ++
  [0x19a4c116, 0x1e376c08, 0x2748774c, 0x34b0bcb5, 0x391c0cb3, 0x4ed8aa4a, 0x5b9cca4f, 0x682e6ff3] ++
  [0x748f82ee, 0x78a5636f, 0x84c87814, 0x8cc70208, 0x90befffa, 0xa4506ceb, 0xbef9a3f7, 0xc67178f2]

/-- The number k of `00` bytes of the padding: the least that makes len + 1 + k + 8 a multiple of 64 (R90). -/
def padZeros (len : Nat) : Nat := (64 - (len + 9) % 64) % 64

/-- The padded message `m ‖ 80 ‖ 00 ... 00 ‖ be64(8 * len)` (R90). -/
def padMessage (m : List Byte) : List Byte :=
  m ++ [0x80] ++ List.replicate (padZeros m.length) 0 ++ be64 (8 * m.length)

/-- Words from bytes, each from four consecutive bytes, the most significant first (R90). DESIGN CHOICE: a last group of fewer
than four bytes, which a padded message does not have, is left out (notes/assumptions/9). -/
def wordsOfBytes : List Byte → List Word
  | b0 :: b1 :: b2 :: b3 :: rest => (b0 ++ b1 ++ b2 ++ b3) :: wordsOfBytes rest
  | _ => []

/-- The blocks of a padded message: sixteen words each, in order (R90). DESIGN CHOICE: a last block of fewer than sixteen
words, which a padded message does not have, is left out (notes/assumptions/9). -/
def blocksOf (ws : List Word) : List (List Word) :=
  (List.range (ws.length / 16)).map fun i => (ws.drop (16 * i)).take 16

/-- `n` more words of the message schedule, the latest word first: each is
SSIG1(W[t-2]) + W[t-7] + SSIG0(W[t-15]) + W[t-16] (R93). -/
def extendSchedule : Nat → List Word → List Word
  | 0, w => w
  | n + 1, w =>
    extendSchedule n ((ssig1 (w.getD 1 0) + w.getD 6 0 + ssig0 (w.getD 14 0) + w.getD 15 0) :: w)

/-- The message schedule `W[0..63]` of a block of sixteen words (R93). DESIGN CHOICE for another number of words: a missing
word is 0 (notes/assumptions/9). -/
def schedule (block : List Word) : List Word := (extendSchedule 48 block.reverse).reverse

/-- One of the 64 steps of the compression, with `K[t]` and `W[t]` (R94). -/
def compressStep (v : HashValue) (kw : Word × Word) : HashValue :=
  let t1 := v.h7 + bsig1 v.h4 + ch v.h4 v.h5 v.h6 + kw.1 + kw.2
  let t2 := bsig0 v.h0 + maj v.h0 v.h1 v.h2
  ⟨t1 + t2, v.h0, v.h1, v.h2, v.h3 + t1, v.h4, v.h5, v.h6⟩

/-- Compression of one block of sixteen words (R94). DESIGN CHOICE for another number of words: as many steps as its schedule
has words, at most 64 (notes/assumptions/9). -/
def compress (hv : HashValue) (block : List Word) : HashValue :=
  let v := (roundConstants.zip (schedule block)).foldl compressStep hv
  ⟨hv.h0 + v.h0, hv.h1 + v.h1, hv.h2 + v.h2, hv.h3 + v.h3, hv.h4 + v.h4, hv.h5 + v.h5, hv.h6 + v.h6, hv.h7 + v.h7⟩

/-- The digest's 32 bytes, be32 of each word in order (R95). -/
def HashValue.digest (hv : HashValue) : List Byte :=
  [hv.h0, hv.h1, hv.h2, hv.h3, hv.h4, hv.h5, hv.h6, hv.h7].flatMap fun w => be32 w.toNat

/-- `SHA256(m)` (R90 to R95): the blocks in order from the initial hash value. -/
def sha256 (m : List Byte) : List Byte :=
  ((blocksOf (wordsOfBytes (padMessage m))).foldl compress initialHash).digest

end Sys2Proof.Machine
end

