-- ==== Sys2Proof/Machine/Expander.lean ====
section
/-! DEFINITION. The hash-based expander, key generation and round-subkey derivation, and their commands EXPAND, GEN and
DERIVE (40_bitvector_and_hash.md R96, R98, 41_keygen_and_subkey.md R105 to R109). -/

namespace Sys2Proof.Machine

/-- The digest stream: `SHA256(x ‖ be32(c))` for the counters 0, 1, ... below `blocks`, in order (R96). -/
def digestStream (x : List Byte) (blocks : Nat) : List Byte :=
  (List.range blocks).flatMap fun c => sha256 (x ++ be32 c)

/-- `expand(x, n)` for n >= 0: the leading n bits of ceil(n/256) digests (40_bitvector_and_hash.md R96). The negative
length, which the port cannot express, is `funcExpand`'s. -/
def expand (x : List Byte) (n : Nat) : BitSeq :=
  unser (digestStream x ((n + (Config.hlen - 1)) / Config.hlen)) n

/-- `GEN(seed)` on a sequence of bits that is not empty (41_keygen_and_subkey.md R105). DESIGN CHOICE on the empty one:
the empty key (notes/assumptions/9). -/
def genKey (seed : BitSeq) : BitSeq := expand (ser seed) (Config.keyMult * seed.length)

/-- `deriveSubkey(key, r)` with `byte(r)` after the key's bytes (41_keygen_and_subkey.md R108). -/
def deriveSubkey (key : BitSeq) (r : Byte) : BitSeq := expand (ser key ++ [r]) key.length

/-- EXPAND (40_bitvector_and_hash.md R98). -/
def execExpand (s : State) : Result :=
  finish (expandCheck s.lmax s.alen.toNat s.nlen.toNat) (fun s => expand (ser s.aSeq) s.nlen.toNat) s

/-- GEN (41_keygen_and_subkey.md R106). -/
def execGen (s : State) : Result :=
  finish (genCheck s.lmax s.alen.toNat) (fun s => genKey s.aSeq) s

/-- DERIVE (41_keygen_and_subkey.md R109). A round index above 255 has no encoding and is not defined (R108, U10). -/
def execDerive (ridx : Nat) (s : State) : Result :=
  if ridx ≤ 255 then
    finish (deriveCheck s.lmax s.alen.toNat) (fun s => deriveSubkey s.aSeq (BitVec.ofNat 8 ridx)) s
  else .refused .roundIndexUndefined

end Sys2Proof.Machine
end

