-- ==== Sys2Proof/Machine/PBox.lean ====
section
/-! DEFINITION. The P-box bit-permutation core and its inverse, and the commands PERM and UNPERM (43_pbox.md). -/

namespace Sys2Proof.Machine

/-- `permute(data)`: bit i goes to place perm_L(i), in the rule's equivalent form out[p] = data[inv_perm_L(p)]
(43_pbox.md R128). A length that is no valid block length is outside the domain (notes/assumptions/9). -/
def permute (c : Config) (data : BitSeq) : BitSeq :=
  (List.range data.length).map fun p => bitOrZero data (c.pbox.inv data.length p)

/-- `unpermute(data)`: bit p goes to place inv_perm_L(p), in the equivalent form out[i] = data[perm_L(i)]
(43_pbox.md R129). -/
def unpermute (c : Config) (data : BitSeq) : BitSeq :=
  (List.range data.length).map fun i => bitOrZero data (c.pbox.perm data.length i)

/-- PERM (43_pbox.md R131). -/
def execPerm (s : State) : Result := streamCommand (permute hardware) s

/-- UNPERM (43_pbox.md R132). -/
def execUnperm (s : State) : Result := streamCommand (unpermute hardware) s

end Sys2Proof.Machine
end

