-- ==== Sys2Proof/Machine/SBox.lean ====
section
/-! DEFINITION. The S-box lookup core and its inverse, and the commands SUB and UNSUB (42_sbox.md). -/

namespace Sys2Proof.Machine

/-- The code of the group `[g0, g1, g2, g3]`: 8*g0 + 4*g1 + 2*g2 + g3 (42_sbox.md R117). -/
def groupCode (g0 g1 g2 g3 : Bool) : Code :=
  Fin.ofNat 16 (8 * g0.toNat + 4 * g1.toNat + 2 * g2.toNat + g3.toNat)

/-- The group that a code stands for (42_sbox.md R117). -/
def codeGroup (y : Code) : BitSeq :=
  [y.val / 8 % 2 == 1, y.val / 4 % 2 == 1, y.val / 2 % 2 == 1, y.val % 2 == 1]

/-- A table applied to every group of 4 elements, each independently of the others (42_sbox.md R118). A length that is no
multiple of 4 is outside the function's domain and every caller has checked it (notes/assumptions/9). -/
def mapGroups (f : Code → Code) : BitSeq → BitSeq
  | g0 :: g1 :: g2 :: g3 :: rest => codeGroup (f (groupCode g0 g1 g2 g3)) ++ mapGroups f rest
  | _ => []

/-- `substitute(data)` (42_sbox.md R118). -/
def substitute (c : Config) (data : BitSeq) : BitSeq := mapGroups (subCode c.sbox) data

/-- `unsubstitute(data)` (42_sbox.md R119). -/
def unsubstitute (c : Config) (data : BitSeq) : BitSeq := mapGroups (unsubCode c.sbox) data

/-- SUB (42_sbox.md R121). -/
def execSub (s : State) : Result := streamCommand (substitute hardware) s

/-- UNSUB (42_sbox.md R122). -/
def execUnsub (s : State) : Result := streamCommand (unsubstitute hardware) s

end Sys2Proof.Machine
end

