-- ==== Sys2Proof/Machine/Round.lean ====
section
/-! DEFINITION. The round transform, forward and inverse, and the commands RNDF and RNDI (44_round.md). -/

namespace Sys2Proof.Machine

/-- `roundForward(data, subkey) = permute(substitute(data XOR subkey))` (44_round.md R135), for lengths that match and are
valid; elsewhere as its parts (notes/assumptions/9). -/
def roundForward (c : Config) (data subkey : BitSeq) : BitSeq := permute c (substitute c (xorSeq data subkey))

/-- `roundInverse(data, subkey) = unsubstitute(unpermute(data)) XOR subkey` (44_round.md R136), for lengths that match and are
valid; elsewhere as its parts (notes/assumptions/9). -/
def roundInverse (c : Config) (data subkey : BitSeq) : BitSeq := xorSeq (unsubstitute c (unpermute c data)) subkey

/-- RNDF: A holds the subkey, B the data (44_round.md R138). -/
def execRndf (s : State) : Result := pairCommand (fun subkey data => roundForward hardware data subkey) s

/-- RNDI: A holds the subkey, B the data (44_round.md R139). -/
def execRndi (s : State) : Result := pairCommand (fun subkey data => roundInverse hardware data subkey) s

end Sys2Proof.Machine
end

