-- ==== Sys2Proof/Machine/Cipher.lean ====
section
/-! DEFINITION. The 4-round encrypt and decrypt pipelines and the commands ENC and DEC (45_enc_dec.md). -/

namespace Sys2Proof.Machine

/-- The round indices 0, 1, 2, 3 in encryption order (00_scope.md R7). -/
def roundIndices : List Nat := List.range Config.rounds

/-- The data path of ENC on a key and a message of one valid length: round r with `deriveSubkey(key, r)` for
r = 0, 1, 2, 3 (45_enc_dec.md R140). -/
def encrypt (c : Config) (key message : BitSeq) : BitSeq :=
  roundIndices.foldl (fun data r => roundForward c data (deriveSubkey key (BitVec.ofNat 8 r))) message

/-- The data path of DEC: the inverse round with the same subkeys for r = 3, 2, 1, 0 (45_enc_dec.md R141). -/
def decrypt (c : Config) (key cipher : BitSeq) : BitSeq :=
  roundIndices.reverse.foldl (fun data r => roundInverse c data (deriveSubkey key (BitVec.ofNat 8 r))) cipher

/-- ENC: A holds the key, B the message (45_enc_dec.md R143). -/
def execEnc (s : State) : Result := pairCommand (encrypt hardware) s

/-- DEC: A holds the key, B the ciphertext (45_enc_dec.md R144). -/
def execDec (s : State) : Result := pairCommand (decrypt hardware) s

end Sys2Proof.Machine
end

