-- ==== Sys2Proof/Machine/Transfer.lean ====
section
/-! DEFINITION. The register transfers MVA and MVB, which cannot fail (46_transfer.md). -/

namespace Sys2Proof.Machine

/-- MVA (46_transfer.md R150). -/
def execMva (s : State) : Result := .next s.moveToA

/-- MVB (46_transfer.md R151). -/
def execMvb (s : State) : Result := .next s.moveToB

end Sys2Proof.Machine
end

