-- ==== Sys2Proof/Machine/Dispatch.lean ====
section
/-! DEFINITION. The meaning of every command, one arm each. -/

namespace Sys2Proof.Machine

def exec (i : Instr) (s : State) : Host.Outcome State Fault Refusal :=
  match i with
  | .expand => Sys2Proof.Machine.execExpand s
  | .gen => Sys2Proof.Machine.execGen s
  | .derive ridx => Sys2Proof.Machine.execDerive ridx s
  | .sub => Sys2Proof.Machine.execSub s
  | .unsub => Sys2Proof.Machine.execUnsub s
  | .perm => Sys2Proof.Machine.execPerm s
  | .unperm => Sys2Proof.Machine.execUnperm s
  | .rndf => Sys2Proof.Machine.execRndf s
  | .rndi => Sys2Proof.Machine.execRndi s
  | .enc => Sys2Proof.Machine.execEnc s
  | .dec => Sys2Proof.Machine.execDec s
  | .mva => Sys2Proof.Machine.execMva s
  | .mvb => Sys2Proof.Machine.execMvb s

end Sys2Proof.Machine
end

