-- ==== Sys2Proof/Machine/Port.lean ====
section
/-! DEFINITION. The port: one move of the host on the engine (20_memory.md R45 to R57, 30_encoding.md R74). -/

namespace Sys2Proof.Machine

/-- Where an access goes: the register at its offset, or the name of what the spec leaves undefined about it
(20_memory.md R45, R47; notes/assumptions/6). -/
def locate (s : State) (addr size : Nat) : Except Refusal Reg :=
  if size ≠ 4 then .error .accessWidth
  else if addr % 4 ≠ 0 then .error .accessMisaligned
  else if addr < s.base ∨ s.base + s.size ≤ addr then .error .accessOutside
  else .ok (regAt s.nw (addr - s.base))

/-- The command a write of `w` to CMD starts: the decoded command's meaning, or `Fail(IllegalCommand)` with no operand
looked at (30_encoding.md R69, R74). -/
def runCommand (w : Word) (s : State) : Result :=
  match decode w with
  | .ok i => exec i s
  | .error _ => .next (s.fail .illegalCommand)

/-- `MemWrite` to a register: the store, and for CMD the command (20_memory.md R57). -/
def hostWrite (reg : Reg) (v : Word) (s : State) : Result :=
  match reg with
  | .cmd => runCommand v s
  | other => .next (writeReg other v s)

/-- `MemRead` of a register: the value goes to the host, and no register changes (20_memory.md R50, R57). -/
def hostRead (reg : Reg) (s : State) : State := { s with returned := s.returned ++ [readReg reg s] }

/-- One move of the host (70_reset_and_hazards.md R195). -/
def perform (act : HostAction) (s : State) : Result :=
  match act with
  | .memWrite addr size v =>
    match locate s addr size with
    | .ok reg => hostWrite reg v s
    | .error k => .refused k
  | .memRead addr size =>
    match locate s addr size with
    | .ok reg => .next (hostRead reg s)
    | .error k => .refused k
  | .reset => .next s.hostReset

/-- One step: the host's next move, or, when none is pending, the idle engine, which holds its registers
(60_exceptions.md R174; notes/assumptions/3). -/
def hostStep (s : State) : Result :=
  match s.pending with
  | [] => .next s
  | act :: rest => perform act { s with pending := rest }

/-- The move that writes the low `nbits` bits of `w` to CMD. -/
def commandWrite (s : State) (nbits w : Nat) : HostAction :=
  .memWrite (s.base + 0x004) 4 (BitVec.ofNat 32 (w % 2 ^ nbits))

end Sys2Proof.Machine
end

