-- ==== Sys2Proof/Machine/Step.lean ====
section
/-! DEFINITION. The one step of the machine. -/

namespace Sys2Proof.Machine

/-- One step: the host's next move performed to its end (20_memory.md R51, R52). -/
def step (s : State) : Host.Outcome State Fault Refusal := hostStep s

/-- `s` with the host's write of one command word to CMD placed before its other moves, so that the next step runs it. The
engine fetches nothing (10_state.md R32): a command comes from the host (notes/assumptions/3). -/
def State.withFetchWord (s : State) (nbits w : Nat) : State :=
  { s with pending := commandWrite s nbits w :: s.pending }

end Sys2Proof.Machine
end

