-- ==== Sys2Proof/Machine/Construct.lean ====
section
/-! DEFINITION. The check of the open tables when an engine is built (42_sbox.md R120, 43_pbox.md R127, 60_exceptions.md
R167). No step runs it. -/

namespace Sys2Proof.Machine

/-- A list is the table of a permutation of its own positions: every entry is a position and no two are equal. -/
def isPermutation (t : List Nat) : Bool := t.all (fun x => decide (x < t.length)) && decide t.Nodup

/-- The valid block lengths that fit: 4, 8, ..., LMAX. -/
def blockLengths (lmax : Nat) : List Nat := (List.range (lmax / 4)).map fun k => 4 * (k + 1)

/-- The check made when an engine is built: a table that fails it is a `ConfigurationError`, and there is then no engine
(42_sbox.md R120, 43_pbox.md R127, 60_exceptions.md R167). The lengths checked are those the registers can hold
(notes/assumptions/15). -/
def checkTables (lmax : Nat) (sbox : List Nat) (perm : Nat → Nat → Nat) : Except ErrorKind Unit :=
  if sbox.length = 16 ∧ isPermutation sbox = true ∧
      ((blockLengths lmax).all fun L => isPermutation ((List.range L).map (perm L))) = true then .ok ()
  else .error .configurationError

end Sys2Proof.Machine
end

