-- ==== Sys2Proof/Machine/FunctionLevel.lean ====
section
/-! DEFINITION. The function level (00_scope.md R4, R16): DOC0's public operations on sequences whose elements may be any
integer, with the errors they raise. The commands do not go through this file: at the port an element is one bit
(10_state.md R39) and a length is not negative (R25). -/

namespace Sys2Proof.Machine

/-- A function-level result: `Ok(s)` or `Err(K)`, an error carrying no bit sequence (00_scope.md R16). -/
abbrev FuncResult := Except ErrorKind BitSeq

/-- `check_bits(s)`: the bits of a sequence of integers, or `InvalidInput` if an element is neither 0 nor 1
(40_bitvector_and_hash.md R86). -/
def checkBits : List Int → FuncResult
  | [] => .ok []
  | x :: rest =>
    match checkBits rest with
    | .error k => .error k
    | .ok bits => if x = 0 then .ok (false :: bits) else if x = 1 then .ok (true :: bits) else .error .invalidInput

/-- `expand(inputBytes, n)` for an integer n, `InvalidInput` when it is negative (40_bitvector_and_hash.md R96). -/
def funcExpand (x : List Byte) (n : Int) : FuncResult :=
  if n < 0 then .error .invalidInput else .ok (expand x n.toNat)

/-- `GEN(seed)` (41_keygen_and_subkey.md R105). -/
def funcGen (seed : List Int) : FuncResult :=
  match checkBits seed with
  | .error k => .error k
  | .ok bits => if bits.length = 0 then .error .invalidInput else .ok (genKey bits)

/-- The checks of ENC and DEC in their order, then the data path (45_enc_dec.md R140). -/
def funcPair (f : BitSeq → BitSeq → BitSeq) (key data : List Int) : FuncResult :=
  match checkBits key, checkBits data with
  | .ok k, .ok d =>
    if !validLen k.length || !validLen d.length then .error .invalidInput
    else if k.length ≠ d.length then .error .sizeMismatch
    else .ok (f k d)
  | .error k, _ => .error k
  | .ok _, .error k => .error k

/-- `ENC(key, message)` (45_enc_dec.md R140). -/
def funcEnc (c : Config) (key message : List Int) : FuncResult := funcPair (encrypt c) key message

/-- `DEC(key, cipher)` (45_enc_dec.md R141). -/
def funcDec (c : Config) (key cipher : List Int) : FuncResult := funcPair (decrypt c) key cipher

/-- `deriveSubkey(key, roundIndex)` on bits; a round index outside 0..255 is not defined and has no value
(41_keygen_and_subkey.md R108, 93_implementation_defined.md U10). -/
def funcDerive (key : BitSeq) (roundIndex : Int) : Option BitSeq :=
  if 0 ≤ roundIndex ∧ roundIndex ≤ 255 then some (deriveSubkey key (BitVec.ofNat 8 roundIndex.toNat)) else none

end Sys2Proof.Machine
end

