-- ==== Sys2Proof/Machine/Script.lean ====
section
/-! DEFINITION. The script notation of 30_encoding.md R72 and R73 as lists of host moves. The engine sees only the word
accesses of an expansion; nothing in the step depends on this file. -/

namespace Sys2Proof.Machine

/-- `wr <reg>, <word>` on the engine of `s`: its BASE and NW alone matter (R72). -/
def wr (s : State) (reg : Reg) (v : Word) : HostAction := .memWrite (s.base + regOffset s.nw reg) 4 v

/-- `rd <reg>` (R72). -/
def rd (s : State) (reg : Reg) : HostAction := .memRead (s.base + regOffset s.nw reg) 4

/-- A command mnemonic: `wr CMD, <word>` (R72). -/
def issue (s : State) (i : Instr) : HostAction := wr s .cmd (encode i)

/-- `lda "<bits>"`: the words that hold the bits, then the length (R73). -/
def lda (s : State) (bits : BitSeq) : List HostAction :=
  ((List.range ((bits.length + 31) / 32)).map fun k => wr s (.aWord k) (wordOfBits bits k)) ++
    [wr s .alen (BitVec.ofNat 32 bits.length)]

/-- `ldb "<bits>"`: the same for B and BLEN (R73). -/
def ldb (s : State) (bits : BitSeq) : List HostAction :=
  ((List.range ((bits.length + 31) / 32)).map fun k => wr s (.bWord k) (wordOfBits bits k)) ++
    [wr s .blen (BitVec.ofNat 32 bits.length)]

/-- `ldn <n>` (R73). -/
def ldn (s : State) (n : Nat) : List HostAction := [wr s .nlen (BitVec.ofNat 32 n)]

/-- Reads of STATUS, RLEN and every word of R, each with the value it is to return. -/
def expectReads (s : State) (status : Word) (bits : BitSeq) : List (HostAction × Word) :=
  [(rd s .status, status), (rd s .rlen, BitVec.ofNat 32 bits.length)] ++
    (List.range s.nw).map fun k => (rd s (.rWord k), wordOfBits bits k)

/-- `expect ok "<bits>"` (R73). -/
def expectOk (s : State) (bits : BitSeq) : List (HostAction × Word) := expectReads s 1 bits

/-- `expect err <kind>`: STATUS is 1 + 2 * code(kind), R is empty (R73). -/
def expectErr (s : State) (k : ErrorKind) : List (HostAction × Word) :=
  expectReads s (BitVec.ofNat 32 (1 + 2 * k.code.toNat)) []

end Sys2Proof.Machine
end

