-- ==== Sys2Proof/Safety.lean ====
section
/-! DEFINITION. What counts as a legal launch and a consistent state, and the two ends of a command, in the terms the
statements use. -/

namespace Sys2Proof.Machine

/-- A host move for which the spec has a step: a 32-bit access at a multiple of 4 inside BASE .. BASE+SIZE-1, or the reset
(20_memory.md R45, R47, 93_implementation_defined.md U8). -/
def HostAction.legal (base size : Nat) : HostAction → Bool
  | .memWrite addr width _ => width == 4 && addr % 4 == 0 && decide (base ≤ addr) && decide (addr < base + size)
  | .memRead addr width => width == 4 && addr % 4 == 0 && decide (base ≤ addr) && decide (addr < base + size)
  | .reset => true

/-- A launch the model accepts: every pending move has a step (20_memory.md R47). -/
def State.launchLegal (s : State) : Bool := s.pending.all (HostAction.legal s.base s.size)

/-- What the spec promises of every state the engine reaches: every wide register has NW words (10_state.md R20),
RLEN never exceeds LMAX (R26), every bit of R at or past RLEN is 0 (R23), STATUS.ERR is none of the codes never produced
(R28, 60_exceptions.md R160), an error leaves R empty (R26, R164) and has completed a command (R28), and before the first
command R is empty and ERR is 0 (R38). -/
structure Consistent (s : State) : Prop where
  sized : s.Sized
  rlen_le : s.rlen.toNat ≤ s.lmax
  tail_zero : ∀ i, s.rlen.toNat ≤ i → i < s.lmax → bitOf s.r i = false
  err_produced : s.status.err = 0 ∨ s.status.err = 1 ∨ s.status.err = 2 ∨ s.status.err = 4 ∨ s.status.err = 5
  err_empty : s.status.err ≠ 0 → s.rlen = 0 ∧ s.status.done = true
  fresh : s.status.done = false → s.rlen = 0 ∧ s.status.err = 0

/-- The operand registers A, ALEN, B, BLEN and NLEN are the same in two states (10_state.md R36). -/
structure SameOperands (s t : State) : Prop where
  a : t.a = s.a
  alen : t.alen = s.alen
  b : t.b = s.b
  blen : t.blen = s.blen
  nlen : t.nlen = s.nlen

/-- The model's own fields are the same in two states. -/
structure SamePlatform (s t : State) : Prop where
  capacity : t.capacity = s.capacity
  baseIndex : t.baseIndex = s.baseIndex
  pending : t.pending = s.pending
  returned : t.returned = s.returned

/-- `t` is `s` after the normal end `WriteResult(v)` of a command (10_state.md R37), with everything it leaves unchanged. -/
structure Completed (s : State) (v : BitSeq) (t : State) : Prop where
  size : t.r.length = s.nw
  rlen : t.rlen.toNat = v.length
  rseq : t.rSeq = v
  tail_zero : ∀ i, v.length ≤ i → i < s.lmax → bitOf t.r i = false
  done : t.status.done = true
  err : t.status.err = 0
  operands : SameOperands s t
  platform : SamePlatform s t

/-- `t` is `s` after the abnormal end `Fail(K)` with the numeric code of K (60_exceptions.md R160, R164), with everything it
leaves unchanged. -/
structure Failed (s : State) (code : BitVec 3) (t : State) : Prop where
  size : t.r.length = s.nw
  rlen : t.rlen = 0
  r : ∀ k, k < s.nw → t.r.getD k 0 = 0
  done : t.status.done = true
  err : t.status.err = code
  operands : SameOperands s t
  platform : SamePlatform s t

/-- The command `i` on the operand B alone computes `f`: its three outcomes in the order of its checks, each a next state
(42_sbox.md R121, 43_pbox.md R131). -/
def StreamOutcomes (i : Instr) (f : BitSeq → BitSeq) : Prop :=
  ∀ s : State,
    (s.lmax < s.blen.toNat → ∃ t, exec i s = .next t ∧ Failed s 4 t) ∧
    (s.blen.toNat ≤ s.lmax → (s.blen.toNat = 0 ∨ s.blen.toNat % 4 ≠ 0) → ∃ t, exec i s = .next t ∧ Failed s 1 t) ∧
    (1 ≤ s.blen.toNat → s.blen.toNat ≤ s.lmax → s.blen.toNat % 4 = 0 →
      ∃ t, exec i s = .next t ∧ t.rlen = s.blen ∧ Completed s (f s.bSeq) t)

/-- The command `i` on the pair A, B computes `f` of A's and B's sequences: its four outcomes in the order of its checks,
each a next state (44_round.md R138, 45_enc_dec.md R143). -/
def PairOutcomes (i : Instr) (f : BitSeq → BitSeq → BitSeq) : Prop :=
  ∀ s : State,
    ((s.lmax < s.alen.toNat ∨ s.lmax < s.blen.toNat) → ∃ t, exec i s = .next t ∧ Failed s 4 t) ∧
    (s.alen.toNat ≤ s.lmax → s.blen.toNat ≤ s.lmax →
      (s.alen.toNat = 0 ∨ s.alen.toNat % 4 ≠ 0 ∨ s.blen.toNat = 0 ∨ s.blen.toNat % 4 ≠ 0) →
      ∃ t, exec i s = .next t ∧ Failed s 1 t) ∧
    (1 ≤ s.alen.toNat → s.alen.toNat ≤ s.lmax → s.alen.toNat % 4 = 0 →
      1 ≤ s.blen.toNat → s.blen.toNat ≤ s.lmax → s.blen.toNat % 4 = 0 → s.alen ≠ s.blen →
      ∃ t, exec i s = .next t ∧ Failed s 2 t) ∧
    (1 ≤ s.alen.toNat → s.alen.toNat ≤ s.lmax → s.alen.toNat % 4 = 0 → s.alen = s.blen →
      ∃ t, exec i s = .next t ∧ t.rlen = s.blen ∧ Completed s (f s.aSeq s.bSeq) t)

/-- The operands a command reads (30_encoding.md R66, column "reads"). -/
def readsA : Instr → Bool
  | .expand | .gen | .derive _ | .rndf | .rndi | .enc | .dec => true
  | .sub | .unsub | .perm | .unperm | .mva | .mvb => false

def readsB : Instr → Bool
  | .sub | .unsub | .perm | .unperm | .rndf | .rndi | .enc | .dec => true
  | .expand | .gen | .derive _ | .mva | .mvb => false

def readsN : Instr → Bool
  | .expand => true
  | .gen | .derive _ | .sub | .unsub | .perm | .unperm | .rndf | .rndi | .enc | .dec | .mva | .mvb => false

/-- The conditions of the error table, one column each (60_exceptions.md R162): a length the command reads, or its result's
length, above LMAX. -/
def CapacityCondition (i : Instr) (s : State) : Prop :=
  match i with
  | .expand => s.lmax < s.alen.toNat ∨ s.lmax < s.nlen.toNat
  | .gen => s.lmax < 4 * s.alen.toNat
  | .derive _ => s.lmax < s.alen.toNat
  | .sub | .unsub | .perm | .unperm => s.lmax < s.blen.toNat
  | .rndf | .rndi | .enc | .dec => s.lmax < s.alen.toNat ∨ s.lmax < s.blen.toNat
  | .mva | .mvb => False

/-- The InvalidInput column of R162. -/
def InputCondition (i : Instr) (s : State) : Prop :=
  match i with
  | .gen => s.alen.toNat = 0
  | .sub | .unsub | .perm | .unperm => s.blen.toNat = 0 ∨ s.blen.toNat % 4 ≠ 0
  | .rndf | .rndi | .enc | .dec =>
    (s.alen.toNat = 0 ∨ s.alen.toNat % 4 ≠ 0) ∨ s.blen.toNat = 0 ∨ s.blen.toNat % 4 ≠ 0
  | .expand | .derive _ | .mva | .mvb => False

/-- The SizeMismatch column of R162. -/
def SizeCondition (i : Instr) (s : State) : Prop :=
  match i with
  | .rndf | .rndi | .enc | .dec => s.alen.toNat ≠ s.blen.toNat
  | .expand | .gen | .derive _ | .sub | .unsub | .perm | .unperm | .mva | .mvb => False

/-- A sequence of bits as a sequence of integers, the function level's element type. -/
def toInts (v : BitSeq) : List Int := v.map fun b => if b then 1 else 0

/-- The function `f` on two sequences of integers has the checks of `ENC` in their order and then computes `g`
(45_enc_dec.md R140). -/
def FuncPairOutcomes (f : List Int → List Int → FuncResult) (g : BitSeq → BitSeq → BitSeq) : Prop :=
  ∀ key data : List Int,
    ((∃ x, (x ∈ key ∨ x ∈ data) ∧ x ≠ 0 ∧ x ≠ 1) → f key data = .error .invalidInput) ∧
    (∀ k d : BitSeq, key = toInts k → data = toInts d →
      ((k.length = 0 ∨ k.length % 4 ≠ 0 ∨ d.length = 0 ∨ d.length % 4 ≠ 0) → f key data = .error .invalidInput) ∧
      (1 ≤ k.length → k.length % 4 = 0 → 1 ≤ d.length → d.length % 4 = 0 → k.length ≠ d.length →
        f key data = .error .sizeMismatch) ∧
      (1 ≤ k.length → k.length % 4 = 0 → k.length = d.length → f key data = .ok (g k d)))

end Sys2Proof.Machine
end

