-- ==== Sys2Proof/Certificates/Slice0/Obligations.lean ====
section
/-! DEFINITION. The statements for the provers. Each docstring names the rule of spec/ it formalises. -/

open Sys2Proof Sys2Proof.Machine

/-! Encoding -/

/-- 30_encoding.md R65, R66, R68, R72: the decoder reads back every well-formed command, DERIVE with every round index. -/
def Obligations.DecodeInvertsEncode : Prop :=
  ∀ i : Instr, i.WellFormed → decode (encode i) = .ok i

/-- 30_encoding.md R65, R68: a word has one meaning, and what the decoder accepts is well formed. -/
def Obligations.EncodeInvertsDecode : Prop :=
  ∀ (w : Word) (i : Instr), decode w = .ok i → encode i = w ∧ i.WellFormed

/-- 30_encoding.md R68: the field tests in their order over the word as a number, and the equivalent reading by the rows of
opcode_table.json: a decoded word is selected by its command's row, the rows are disjoint, a word no row selects is
illegal. -/
def Obligations.DecodeFollowsFieldTestsAndTable : Prop :=
  ∀ w : Word,
    (w.toNat / 65536 ≠ 0 → ∃ e, decode w = .error e) ∧
    (w.toNat / 65536 = 0 → w.toNat % 256 = 0x11 → decode w = .ok (.derive (w.toNat / 256 % 256))) ∧
    (w.toNat / 65536 = 0 → w.toNat % 256 ≠ 0x11 → w.toNat / 256 % 256 ≠ 0 → ∃ e, decode w = .error e) ∧
    (∀ p : Nat × Instr, p ∈ [(0x01, Instr.gen), (0x02, .enc), (0x03, .dec), (0x10, .expand), (0x20, .sub), (0x21, .unsub),
        (0x22, .perm), (0x23, .unperm), (0x30, .rndf), (0x31, .rndi), (0x40, .mva), (0x41, .mvb)] →
      w.toNat = p.1 → decode w = .ok p.2) ∧
    (w.toNat < 256 → w.toNat ∉ [0x01, 0x02, 0x03, 0x10, 0x11, 0x20, 0x21, 0x22, 0x23, 0x30, 0x31, 0x40, 0x41] →
      ∃ e, decode w = .error e) ∧
    (∀ i, decode w = .ok i → ∃ row, row ∈ opcodeTable ∧ row.mnemonic = mnemonicOf i ∧ row.selects w = true) ∧
    ((∃ e, decode w = .error e) ↔ ∀ row, row ∈ opcodeTable → row.selects w = false) ∧
    (∀ row row', row ∈ opcodeTable → row' ∈ opcodeTable → row.selects w = true → row'.selects w = true → row = row')

/-- 30_encoding.md R66, R67, R72: some words written out from the table decode to their commands (a sanity statement). -/
def Obligations.WrittenWordsDecode : Prop :=
  decode 0x00000001 = .ok .gen ∧ decode 0x00000003 = .ok .dec ∧ decode 0x00000010 = .ok .expand ∧
    decode 0x0000FF11 = .ok (.derive 255) ∧ decode 0x00000021 = .ok .unsub ∧ decode 0x00000022 = .ok .perm ∧
    decode 0x00000031 = .ok .rndi ∧ decode 0x00000040 = .ok .mva ∧
    decode 0x00000101 = .error .roundIndexNotZero ∧ decode 0x00010011 = .error .reservedBits ∧
    decode 0x00000012 = .error .unknownOpcode

/-! The step and the register space -/

/-- 30_encoding.md R74: a host write of a decodable word to CMD steps to what `exec` answers for the decoded command, the
move taken from the pending ones. The second clause says it of `withFetchWord`. -/
def Obligations.StepRunsDecodedCommand : Prop :=
  (∀ (s : State) (w : Word) (i : Instr) (rest : List HostAction),
    s.pending = .memWrite (s.base + 0x004) 4 w :: rest → decode w = .ok i →
    step s = exec i { s with pending := rest }) ∧
  (∀ (s : State) (n : Nat) (i : Instr), n < 2 ^ 32 → decodeTableWord 32 n = some i →
    step (s.withFetchWord 32 n) = exec i s)

/-- 30_encoding.md R69: every illegal word ends at once with IllegalCommand. -/
def Obligations.IllegalWordFailsAtOnce : Prop :=
  ∀ (s : State) (w : Word) (rest : List HostAction),
    s.pending = .memWrite (s.base + 0x004) 4 w :: rest →
    (w.toNat / 65536 ≠ 0 ∨ (w.toNat % 256 ≠ 0x11 ∧ w.toNat / 256 % 256 ≠ 0) ∨ w.toNat % 256 = 0x00 ∨
      (0x04 ≤ w.toNat % 256 ∧ w.toNat % 256 ≤ 0x0F) ∨ (0x12 ≤ w.toNat % 256 ∧ w.toNat % 256 ≤ 0x1F) ∨
      (0x24 ≤ w.toNat % 256 ∧ w.toNat % 256 ≤ 0x2F) ∨ (0x32 ≤ w.toNat % 256 ∧ w.toNat % 256 ≤ 0x3F) ∨
      0x42 ≤ w.toNat % 256) →
    ∃ t, step s = .next t ∧ Failed { s with pending := rest } 5 t

/-- 20_memory.md R46, R57: a host write to any offset but CMD's replaces the writable bits of the register at that offset
and nothing else; a read-only register and a reserved offset have none. `Sized` is part of the invariant of
`StepKeepsRegisterInvariant`. -/
def Obligations.HostWriteStoresWritableBits : Prop :=
  ∀ (s : State) (off : Nat) (v : Word) (rest : List HostAction),
    s.Sized → off % 4 = 0 → off < s.size → off ≠ 0x004 → s.pending = .memWrite (s.base + off) 4 v :: rest →
    ∃ t, step s = .next t ∧
      t.alen = (if off = 0x00C then BitVec.ofNat 16 v.toNat else s.alen) ∧
      t.blen = (if off = 0x010 then BitVec.ofNat 16 v.toNat else s.blen) ∧
      t.nlen = (if off = 0x014 then BitVec.ofNat 16 v.toNat else s.nlen) ∧
      (∀ k, k < s.nw → t.a.getD k 0 = if off = 0x040 + 4 * k then v else s.a.getD k 0) ∧
      (∀ k, k < s.nw → t.b.getD k 0 = if off = 0x040 + 4 * s.nw + 4 * k then v else s.b.getD k 0) ∧
      t.r = s.r ∧ t.rlen = s.rlen ∧ t.status = s.status ∧ t.Sized ∧ t.capacity = s.capacity ∧
      t.baseIndex = s.baseIndex ∧ t.pending = rest ∧ t.returned = s.returned

/-- 20_memory.md R46, R50, R57: a host read returns the register at its offset and changes no register. -/
def Obligations.HostReadReturnsRegister : Prop :=
  ∀ (s : State) (off : Nat) (rest : List HostAction),
    off % 4 = 0 → off < s.size → s.pending = .memRead (s.base + off) 4 :: rest →
    ∃ x : Word, step s = .next { s with pending := rest, returned := s.returned ++ [x] } ∧
      (off = 0x000 → x = idWord s.nw) ∧ (off = 0x004 → x = 0) ∧
      (off = 0x008 → x.toNat = s.status.done.toNat + 2 * s.status.err.toNat) ∧
      (off = 0x00C → x.toNat = s.alen.toNat) ∧ (off = 0x010 → x.toNat = s.blen.toNat) ∧
      (off = 0x014 → x.toNat = s.nlen.toNat) ∧ (off = 0x018 → x.toNat = s.rlen.toNat) ∧
      (0x01C ≤ off → off ≤ 0x03C → x = 0) ∧
      (∀ k, k < s.nw → off = 0x040 + 4 * k → x = s.a.getD k 0) ∧
      (∀ k, k < s.nw → off = 0x040 + 4 * s.nw + 4 * k → x = s.b.getD k 0) ∧
      (∀ k, k < s.nw → off = 0x040 + 8 * s.nw + 4 * k → x = s.r.getD k 0)

/-- 20_memory.md R49: a write to a read-only register or a reserved offset is ignored, a read of CMD or of a reserved offset
returns 0, and neither changes any register. -/
def Obligations.AccessRightsOfTheRegisterSpace : Prop :=
  (∀ (s : State) (off : Nat) (v : Word) (rest : List HostAction), off % 4 = 0 →
    (off = 0x000 ∨ off = 0x008 ∨ (0x018 ≤ off ∧ off < 0x040) ∨ (0x040 + 8 * s.nw ≤ off ∧ off < s.size)) →
    s.pending = .memWrite (s.base + off) 4 v :: rest → step s = .next { s with pending := rest }) ∧
  (∀ (s : State) (off : Nat) (rest : List HostAction), off % 4 = 0 →
    (off = 0x004 ∨ (0x01C ≤ off ∧ off < 0x040)) → s.pending = .memRead (s.base + off) 4 :: rest →
    step s = .next { s with pending := rest, returned := s.returned ++ [0] })

/-- 20_memory.md R50, R52, R57: a write followed by a read of a writable register returns the written bits: the whole word
of A or B, bits 15:0 of a length register. -/
def Obligations.ReadAfterWriteReturnsWrittenBits : Prop :=
  ∀ (s : State) (off : Nat) (v : Word) (rest : List HostAction),
    s.Sized → off % 4 = 0 → ((0x00C ≤ off ∧ off ≤ 0x014) ∨ (0x040 ≤ off ∧ off < 0x040 + 8 * s.nw)) →
    s.pending = .memWrite (s.base + off) 4 v :: .memRead (s.base + off) 4 :: rest →
    ∃ t, Host.Core.run Sys2Proof.core 2 s = .next t ∧ t.pending = rest ∧
      t.returned = s.returned ++ [if off ≤ 0x014 then BitVec.ofNat 32 (v.toNat % 65536) else v]

/-- 20_memory.md R45, R47, 93_implementation_defined.md U8: an access of another width, at an unaligned address or outside the
register space is refused, each by its name (which name is given first when several hold is notes/assumptions/6). -/
def Obligations.UndefinedAccessIsRefused : Prop :=
  ∀ (s : State) (addr size : Nat) (v : Word) (rest : List HostAction),
    (s.pending = .memWrite addr size v :: rest ∨ s.pending = .memRead addr size :: rest) →
    (size ≠ 4 → step s = .refused .accessWidth) ∧
    (size = 4 → addr % 4 ≠ 0 → step s = .refused .accessMisaligned) ∧
    (size = 4 → addr % 4 = 0 → (addr < s.base ∨ s.base + s.size ≤ addr) → step s = .refused .accessOutside)

/-- 70_reset_and_hazards.md R190, 10_state.md R38: the reset puts every register at its reset value, in an engine of every
capacity. -/
def Obligations.HostResetClearsEveryRegister : Prop :=
  ∀ (s : State) (rest : List HostAction), s.pending = .reset :: rest →
    ∃ t, step s = .next t ∧ t.a.length = s.nw ∧ t.b.length = s.nw ∧ t.r.length = s.nw ∧
      (∀ k, k < s.nw → t.a.getD k 0 = 0 ∧ t.b.getD k 0 = 0 ∧ t.r.getD k 0 = 0) ∧
      t.alen = 0 ∧ t.blen = 0 ∧ t.nlen = 0 ∧ t.rlen = 0 ∧ t.status.word = 0

/-- 10_state.md R38, 00_scope.md R11: the state after reset, in the engine of this hardware, whose LMAX is 512. -/
def Obligations.ResetStateValues : Prop :=
  State.reset.lmax = 512 ∧ State.reset.Sized ∧
    (∀ k, k < 16 → State.reset.a.getD k 0 = 0 ∧ State.reset.b.getD k 0 = 0 ∧ State.reset.r.getD k 0 = 0) ∧
    State.reset.alen = 0 ∧ State.reset.blen = 0 ∧ State.reset.nlen = 0 ∧ State.reset.rlen = 0 ∧
    State.reset.status.word = 0 ∧ readReg .cmd State.reset = 0 ∧ readReg .id State.reset = 0x10100444

/-- 10_state.md R29: the fields of ID in every state, CAPW the number of words of the engine's capacity, and its value for
LMAX = 512. -/
def Obligations.IdRegisterFields : Prop :=
  ∀ s : State,
    (readReg .id s).extractLsb' 0 4 = 4 ∧ (readReg .id s).extractLsb' 4 4 = 4 ∧ (readReg .id s).extractLsb' 8 4 = 4 ∧
    (readReg .id s).extractLsb' 12 4 = 0 ∧ ((readReg .id s).extractLsb' 16 12).toNat = s.lmax / 32 ∧
    (readReg .id s).extractLsb' 28 4 = 1 ∧
    (s.lmax = 512 → readReg .id s = 0x10100444)

/-- 10_state.md R28, 60_exceptions.md R160: the bits of STATUS and the numeric codes. -/
def Obligations.StatusFieldsAndCodes : Prop :=
  (∀ st : Status, st.word.getLsbD 0 = st.done ∧ st.word.extractLsb' 1 3 = st.err ∧ st.word.extractLsb' 4 28 = 0) ∧
    ErrorKind.invalidInput.code = 1 ∧ ErrorKind.sizeMismatch.code = 2 ∧ ErrorKind.configurationError.code = 3 ∧
    ErrorKind.capacityExceeded.code = 4 ∧ ErrorKind.illegalCommand.code = 5

/-! Invariants and whole-machine rules -/

/-- 10_state.md R23, R26, R28, 60_exceptions.md R160, R164: the register invariant is kept by every step from every state
that has it. -/
def Obligations.StepKeepsRegisterInvariant : Prop :=
  ∀ s t : State, Consistent s → step s = .next t → Consistent t

/-- 10_state.md R38: the register invariant holds after reset. -/
def Obligations.ResetMeetsRegisterInvariant : Prop :=
  Consistent State.reset

/-- 20_memory.md R47, R51, 60_exceptions.md R165: a launch of legal moves is never refused; every number of steps succeeds,
and once there are as many steps as moves, all moves have been performed. The idle steps after the last move are the
model's choice, notes/assumptions/3. -/
def Obligations.LegalLaunchRunsToItsEnd : Prop :=
  ∀ s : State, s.launchLegal = true → ∀ k : Nat,
    ∃ t, Host.Core.run Sys2Proof.core k s = .next t ∧ t.pending = s.pending.drop k ∧ t.baseIndex = s.baseIndex ∧
      t.capacity = s.capacity

/-- 10_state.md R21, R22, R23, R28, R36: what each command leaves unchanged: A and ALEN by every command but MVA, B and BLEN
by every command but MVB, NLEN by every command, R and RLEN by MVA and MVB; and every command sets DONE. -/
def Obligations.CommandFrame : Prop :=
  ∀ (i : Instr) (s t : State), exec i s = .next t →
    (i ≠ .mva → t.a = s.a ∧ t.alen = s.alen) ∧ (i ≠ .mvb → t.b = s.b ∧ t.blen = s.blen) ∧ t.nlen = s.nlen ∧
      ((i = .mva ∨ i = .mvb) → t.r = s.r ∧ t.rlen = s.rlen) ∧ t.status.done = true ∧ SamePlatform s t

/-- 10_state.md R34 (and R30, 30_encoding.md R66): the outcome of a command is a function of the command and of A, ALEN, B,
BLEN, NLEN, R, RLEN (in an engine of one capacity); and the new R, RLEN and STATUS of a command other than MVA and MVB depend
on the lengths it reads and on the bits below them, and on nothing else: not on R, RLEN or STATUS, not on bits past a length,
not on a register it does not read. -/
def Obligations.CommandOutcomeIsStateless : Prop :=
  (∀ (i : Instr) (s s' t t' : State), exec i s = .next t → exec i s' = .next t' →
    s.capacity = s'.capacity →
    s.a = s'.a → s.alen = s'.alen → s.b = s'.b → s.blen = s'.blen → s.nlen = s'.nlen → s.r = s'.r → s.rlen = s'.rlen →
    t.a = t'.a ∧ t.alen = t'.alen ∧ t.b = t'.b ∧ t.blen = t'.blen ∧ t.nlen = t'.nlen ∧ t.r = t'.r ∧ t.rlen = t'.rlen ∧
      t.status = t'.status) ∧
  ∀ (i : Instr) (s s' t t' : State), i ≠ .mva → i ≠ .mvb → exec i s = .next t → exec i s' = .next t' →
    s.capacity = s'.capacity →
    (readsA i = true → s.alen = s'.alen ∧ (s.alen.toNat ≤ s.lmax → s.aSeq = s'.aSeq)) →
    (readsB i = true → s.blen = s'.blen ∧ (s.blen.toNat ≤ s.lmax → s.bSeq = s'.bSeq)) →
    (readsN i = true → s.nlen = s'.nlen) →
    t.r = t'.r ∧ t.rlen = t'.rlen ∧ t.status = t'.status

/-- 20_memory.md R50: writing the same command twice leaves what the first execution left. -/
def Obligations.RepeatedCommandChangesNothing : Prop :=
  ∀ (i : Instr) (s t : State), exec i s = .next t → exec i t = .next t

/-- 60_exceptions.md R162, R163: the error code of every command in every state: CapacityExceeded first, then InvalidInput,
then SizeMismatch, each exactly under its condition in the table. -/
def Obligations.ErrorTableAndPriority : Prop :=
  ∀ (i : Instr) (s : State), i.WellFormed → ∃ t, exec i s = .next t ∧
    (t.status.err = 4 ↔ CapacityCondition i s) ∧
    (t.status.err = 1 ↔ ¬ CapacityCondition i s ∧ InputCondition i s) ∧
    (t.status.err = 2 ↔ ¬ CapacityCondition i s ∧ ¬ InputCondition i s ∧ SizeCondition i s) ∧
    (t.status.err = 0 ↔ ¬ CapacityCondition i s ∧ ¬ InputCondition i s ∧ ¬ SizeCondition i s)

/-! The two ends of a command and the sequence view -/

/-- 10_state.md R37: `WriteResult(v)` for len(v) <= LMAX. -/
def Obligations.WriteResultLeavesSequenceInR : Prop :=
  ∀ (s : State) (v : BitSeq), v.length ≤ s.lmax → Completed s v (s.writeResult v)

/-- 60_exceptions.md R164: `Fail(K)` for every kind K. -/
def Obligations.FailEmptiesR : Prop :=
  ∀ (s : State) (k : ErrorKind), Failed s k.code (s.fail k)

/-- 10_state.md R30, 20_memory.md R48: element i of the sequence view is bit 31 - (i mod 32) of word i div 32. -/
def Obligations.SequenceViewIsMostSignificantFirst : Prop :=
  ∀ (x : WideReg) (n i : Nat), n ≤ 32 * x.length → i < n →
    (seqOf x n).length = n ∧ (seqOf x n)[i]? = some ((x.getD (i / 32) 0).getLsbD (31 - i % 32))

/-! Commands -/

/-- 40_bitvector_and_hash.md R98: EXPAND, and its last derived sentence: with ALEN = n >= 1 and NLEN = 4n it leaves what GEN
leaves. -/
def Obligations.ExpandWritesExpansion : Prop :=
  ∀ s : State,
    ((s.lmax < s.alen.toNat ∨ s.lmax < s.nlen.toNat) → ∃ t, exec .expand s = .next t ∧ Failed s 4 t) ∧
    (s.alen.toNat ≤ s.lmax → s.nlen.toNat ≤ s.lmax →
      ∃ t, exec .expand s = .next t ∧ t.rlen = s.nlen ∧ Completed s (expand (ser s.aSeq) s.nlen.toNat) t) ∧
    (1 ≤ s.alen.toNat → s.nlen.toNat = 4 * s.alen.toNat → s.nlen.toNat ≤ s.lmax →
      ∃ t, exec .expand s = .next t ∧ exec .gen s = .next t)

/-- 41_keygen_and_subkey.md R106: GEN. -/
def Obligations.GenWritesKey : Prop :=
  ∀ s : State,
    (s.lmax < 4 * s.alen.toNat → ∃ t, exec .gen s = .next t ∧ Failed s 4 t) ∧
    (s.alen.toNat = 0 → ∃ t, exec .gen s = .next t ∧ Failed s 1 t) ∧
    (1 ≤ s.alen.toNat → 4 * s.alen.toNat ≤ s.lmax →
      ∃ t, exec .gen s = .next t ∧ t.rlen.toNat = 4 * s.alen.toNat ∧
        Completed s (expand (ser s.aSeq) (4 * s.alen.toNat)) t)

/-- 41_keygen_and_subkey.md R109: DERIVE, with every RIDX 0..255; and R108, 93_implementation_defined.md U10: a round index
above 255 has no encoding and is not defined, and the ill-formed term is refused by name (notes/assumptions/7). -/
def Obligations.DeriveWritesSubkey : Prop :=
  ∀ (s : State) (r : Nat),
    (r ≤ 255 → s.lmax < s.alen.toNat → ∃ t, exec (.derive r) s = .next t ∧ Failed s 4 t) ∧
    (r ≤ 255 → s.alen.toNat ≤ s.lmax →
      ∃ t, exec (.derive r) s = .next t ∧ t.rlen = s.alen ∧
        Completed s (expand (ser s.aSeq ++ [BitVec.ofNat 8 r]) s.alen.toNat) t) ∧
    (255 < r → exec (.derive r) s = .refused .roundIndexUndefined)

/-- 42_sbox.md R121: SUB. -/
def Obligations.SubWritesSubstitution : Prop :=
  StreamOutcomes .sub (substitute hardware)

/-- 42_sbox.md R122: UNSUB, and its law at the port: sub, mvb, unsub restores B's sequence in R. -/
def Obligations.UnsubWritesAndUndoesSub : Prop :=
  StreamOutcomes .unsub (unsubstitute hardware) ∧
  ∀ s : State, 1 ≤ s.blen.toNat → s.blen.toNat ≤ s.lmax → s.blen.toNat % 4 = 0 →
    ∃ t1 t2 t3, exec .sub s = .next t1 ∧ exec .mvb t1 = .next t2 ∧ exec .unsub t2 = .next t3 ∧ t3.rSeq = s.bSeq

/-- 43_pbox.md R131, R132: PERM and UNPERM. -/
def Obligations.PermAndUnpermWritePermutation : Prop :=
  StreamOutcomes .perm (permute hardware) ∧ StreamOutcomes .unperm (unpermute hardware)

/-- 44_round.md R138: RNDF, the subkey in A and the data in B. -/
def Obligations.RndfWritesRound : Prop :=
  PairOutcomes .rndf (fun subkey data => permute hardware (substitute hardware (xorSeq data subkey)))

/-- 44_round.md R139: RNDI, and its law at the port: rndf, mvb, rndi restores B's sequence in R. -/
def Obligations.RndiWritesAndUndoesRndf : Prop :=
  PairOutcomes .rndi (fun subkey data => xorSeq (unsubstitute hardware (unpermute hardware data)) subkey) ∧
  ∀ s : State, 1 ≤ s.blen.toNat → s.blen.toNat ≤ s.lmax → s.blen.toNat % 4 = 0 → s.alen = s.blen →
    ∃ t1 t2 t3, exec .rndf s = .next t1 ∧ exec .mvb t1 = .next t2 ∧ exec .rndi t2 = .next t3 ∧ t3.rSeq = s.bSeq

/-- 45_enc_dec.md R143: ENC, four rounds with the subkeys of rounds 0, 1, 2, 3. -/
def Obligations.EncWritesCiphertext : Prop :=
  PairOutcomes .enc (fun key message =>
    roundForward hardware (roundForward hardware (roundForward hardware (roundForward hardware message
      (deriveSubkey key 0)) (deriveSubkey key 1)) (deriveSubkey key 2)) (deriveSubkey key 3))

/-- 45_enc_dec.md R144: DEC, and its law at the port: with the key left in A, enc, mvb, dec restores B's sequence in R. -/
def Obligations.DecWritesAndUndoesEnc : Prop :=
  PairOutcomes .dec (fun key cipher =>
    roundInverse hardware (roundInverse hardware (roundInverse hardware (roundInverse hardware cipher
      (deriveSubkey key 3)) (deriveSubkey key 2)) (deriveSubkey key 1)) (deriveSubkey key 0)) ∧
  ∀ s : State, 1 ≤ s.blen.toNat → s.blen.toNat ≤ s.lmax → s.blen.toNat % 4 = 0 → s.alen = s.blen →
    ∃ t1 t2 t3, exec .enc s = .next t1 ∧ exec .mvb t1 = .next t2 ∧ exec .dec t2 = .next t3 ∧ t3.rSeq = s.bSeq

/-- 46_transfer.md R150, R151: MVA and MVB. -/
def Obligations.MvaAndMvbCopyResult : Prop :=
  (∀ s : State, ∃ t, exec .mva s = .next t ∧ t.a = s.r ∧ t.alen = s.rlen ∧
    t.aSeq = s.rSeq ∧ t.status.err = 0 ∧ t.status.done = true ∧ t.r = s.r ∧ t.rlen = s.rlen ∧ t.b = s.b ∧
    t.blen = s.blen ∧ t.nlen = s.nlen ∧ SamePlatform s t) ∧
  ∀ s : State, ∃ t, exec .mvb s = .next t ∧ t.b = s.r ∧ t.blen = s.rlen ∧
    t.bSeq = s.rSeq ∧ t.status.err = 0 ∧ t.status.done = true ∧ t.r = s.r ∧ t.rlen = s.rlen ∧ t.a = s.a ∧
    t.alen = s.alen ∧ t.nlen = s.nlen ∧ SamePlatform s t

/-! Serialisation, SHA-256 and the expander -/

/-- 40_bitvector_and_hash.md R83: XOR element by element on sequences of one length, and its three laws. -/
def Obligations.XorOfSequences : Prop :=
  ∀ s t : BitSeq, s.length = t.length →
    (xorSeq s t).length = s.length ∧
    (∀ i, i < s.length → (bitOrZero (xorSeq s t) i).toNat = ((bitOrZero s i).toNat + (bitOrZero t i).toNat) % 2) ∧
    xorSeq s t = xorSeq t s ∧ xorSeq (xorSeq s t) t = s ∧ xorSeq s (zeros s.length) = s

/-- 40_bitvector_and_hash.md R87, R88: the bytes of `ser`, the bits of `unser`, and that `unser` undoes `ser`. -/
def Obligations.SerAndUnserMostSignificantFirst : Prop :=
  (∀ s : BitSeq, (ser s).length = (s.length + 7) / 8 ∧
    ∀ k, k < (s.length + 7) / 8 → ∀ j, j < 8 →
      ((ser s).getD k 0).getLsbD (7 - j) = (if 8 * k + j < s.length then s.getD (8 * k + j) false else false)) ∧
  (∀ (d : List Byte) (n i : Nat), n ≤ 8 * d.length → i < n →
    (unser d n).length = n ∧ (unser d n)[i]? = some ((d.getD (i / 8) 0).getLsbD (7 - i % 8))) ∧
  ∀ s : BitSeq, unser (ser s) s.length = s

/-- 40_bitvector_and_hash.md R90: the padding is the least that fills a block, so that the padded message is whole blocks; the
length is its last bytes, exactly eight of them; and a word is read from four consecutive bytes, the most significant first. -/
def Obligations.ShaPaddingAndWords : Prop :=
  (∀ m : List Byte, 8 * m.length < 2 ^ 64 → ∃ k,
    padMessage m = m ++ [0x80] ++ List.replicate k 0 ++ be64 (8 * m.length) ∧
    (m.length + 1 + k + 8) % 64 = 0 ∧ (padMessage m).length % 64 = 0 ∧ (be64 (8 * m.length)).length = 8 ∧
    (∀ k', k' < k → (m.length + 1 + k' + 8) % 64 ≠ 0) ∧
    (be64 (8 * m.length)).foldl (fun acc b => 256 * acc + b.toNat) 0 = 8 * m.length) ∧
  (∀ d : List Byte, d.length % 4 = 0 → (wordsOfBytes d).length = d.length / 4 ∧
    ∀ k, k < d.length / 4 → ((wordsOfBytes d).getD k 0).toNat =
      (d.getD (4 * k) 0).toNat * 2 ^ 24 + (d.getD (4 * k + 1) 0).toNat * 2 ^ 16 + (d.getD (4 * k + 2) 0).toNat * 2 ^ 8 +
        (d.getD (4 * k + 3) 0).toNat) ∧
  (∀ ws : List Word, ws.length % 16 = 0 → (blocksOf ws).length = ws.length / 16 ∧
    ∀ i, i < ws.length / 16 → ∀ j, j < 16 → ((blocksOf ws).getD i []).getD j 0 = ws.getD (16 * i + j) 0)

/-- 40_bitvector_and_hash.md R91: the word operations, over the numbers the rule writes them with. -/
def Obligations.ShaWordOperations : Prop :=
  (∀ (x : Word) (n : Nat), 0 < n → n < 32 →
    (shr x n).toNat = x.toNat / 2 ^ n ∧
    (rotr x n).toNat = (x.toNat / 2 ^ n) ||| ((x.toNat * 2 ^ (32 - n)) % 2 ^ 32)) ∧
  (∀ (x y z : Word) (i : Nat), i < 32 →
    (ch x y z).getLsbD i = (if x.getLsbD i then y.getLsbD i else z.getLsbD i) ∧
    (maj x y z).getLsbD i = ((x.getLsbD i && y.getLsbD i) || (x.getLsbD i && z.getLsbD i) || (y.getLsbD i && z.getLsbD i))) ∧
  (∀ x : Word, bsig0 x = rotr x 2 ^^^ rotr x 13 ^^^ rotr x 22 ∧ bsig1 x = rotr x 6 ^^^ rotr x 11 ^^^ rotr x 25 ∧
    ssig0 x = rotr x 7 ^^^ rotr x 18 ^^^ shr x 3 ∧ ssig1 x = rotr x 17 ^^^ rotr x 19 ^^^ shr x 10)

/-- 40_bitvector_and_hash.md R92: the initial hash value and the round constants are what the rule says they are: the first
32 bits of the fractional parts of the square roots of the first eight primes, and of the cube roots of the first 64
primes; 2^32 times the root lies between two neighbouring integers, the lower one ending in the constant (a sanity
statement). -/
def Obligations.ShaConstantsAreRootsOfPrimes : Prop :=
  let primes := (List.range 312).filter fun n => decide (2 ≤ n) && (List.range n).all fun d => decide (d < 2) || n % d != 0
  primes.length = 64 ∧ roundConstants.length = 64 ∧
    ((primes.take 8).zip [initialHash.h0, initialHash.h1, initialHash.h2, initialHash.h3, initialHash.h4, initialHash.h5,
      initialHash.h6, initialHash.h7]).all (fun q => (List.range 5).any fun m =>
        decide ((m * 2 ^ 32 + q.2.toNat) ^ 2 ≤ q.1 * 2 ^ 64) && decide (q.1 * 2 ^ 64 < (m * 2 ^ 32 + q.2.toNat + 1) ^ 2)) = true ∧
    (primes.zip roundConstants).all (fun q => (List.range 7).any fun m =>
        decide ((m * 2 ^ 32 + q.2.toNat) ^ 3 ≤ q.1 * 2 ^ 96) && decide (q.1 * 2 ^ 96 < (m * 2 ^ 32 + q.2.toNat + 1) ^ 3)) = true

/-- 40_bitvector_and_hash.md R93: the message schedule. -/
def Obligations.ShaMessageSchedule : Prop :=
  ∀ m : List Word, m.length = 16 → (schedule m).length = 64 ∧
    (∀ t, t < 16 → (schedule m).getD t 0 = m.getD t 0) ∧
    (∀ t, 16 ≤ t → t < 64 → (schedule m).getD t 0 =
      ssig1 ((schedule m).getD (t - 2) 0) + (schedule m).getD (t - 7) 0 + ssig0 ((schedule m).getD (t - 15) 0) +
        (schedule m).getD (t - 16) 0)

/-- 40_bitvector_and_hash.md R94: the 64 steps of the compression of one block, and the addition that ends it; and for every
message below 2^61 bytes the padded message's blocks are compressed in order, block 0 first, from the constants of R92, to
the hash value whose words' bytes are the digest (R95). -/
def Obligations.ShaCompression : Prop :=
  (∀ (hv : HashValue) (m : List Word), m.length = 16 →
    ∃ v : Nat → HashValue, v 0 = hv ∧
      (∀ t, t < 64 →
        let t1 := (v t).h7 + bsig1 (v t).h4 + ch (v t).h4 (v t).h5 (v t).h6 + roundConstants.getD t 0 + (schedule m).getD t 0
        let t2 := bsig0 (v t).h0 + maj (v t).h0 (v t).h1 (v t).h2
        (v (t + 1)).h7 = (v t).h6 ∧ (v (t + 1)).h6 = (v t).h5 ∧ (v (t + 1)).h5 = (v t).h4 ∧
          (v (t + 1)).h4 = (v t).h3 + t1 ∧ (v (t + 1)).h3 = (v t).h2 ∧ (v (t + 1)).h2 = (v t).h1 ∧
          (v (t + 1)).h1 = (v t).h0 ∧ (v (t + 1)).h0 = t1 + t2) ∧
      (compress hv m).h0 = hv.h0 + (v 64).h0 ∧ (compress hv m).h1 = hv.h1 + (v 64).h1 ∧
      (compress hv m).h2 = hv.h2 + (v 64).h2 ∧ (compress hv m).h3 = hv.h3 + (v 64).h3 ∧
      (compress hv m).h4 = hv.h4 + (v 64).h4 ∧ (compress hv m).h5 = hv.h5 + (v 64).h5 ∧
      (compress hv m).h6 = hv.h6 + (v 64).h6 ∧ (compress hv m).h7 = hv.h7 + (v 64).h7) ∧
  ∀ m : List Byte, m.length < 2 ^ 61 →
    ∃ v : Nat → HashValue, v 0 = initialHash ∧
      (∀ i, i < (padMessage m).length / 64 →
        v (i + 1) = compress (v i) (wordsOfBytes (((padMessage m).drop (64 * i)).take 64))) ∧
      ∃ h, h = v ((padMessage m).length / 64) ∧
        sha256 m = be32 h.h0.toNat ++ be32 h.h1.toNat ++ be32 h.h2.toNat ++ be32 h.h3.toNat ++ be32 h.h4.toNat ++
          be32 h.h5.toNat ++ be32 h.h6.toNat ++ be32 h.h7.toNat

/-- 40_bitvector_and_hash.md R95: the three check digests of SHA-256, each as the number its 32 bytes write (a sanity
statement), and the digest's length for every message. -/
def Obligations.ShaCheckValues : Prop :=
  (∀ m : List Byte, (sha256 m).length = 32) ∧
  (sha256 []).foldl (fun acc b => 256 * acc + b.toNat) 0 =
    0xe3b0c44298fc1c149afbf4c8996fb92427ae41e4649b934ca495991b7852b855 ∧
  (sha256 [0x61, 0x62, 0x63]).foldl (fun acc b => 256 * acc + b.toNat) 0 =
    0xba7816bf8f01cfea414140de5dae2223b00361a396177a9cb410ff61f20015ad ∧
  (sha256 [0, 0, 0, 0]).foldl (fun acc b => 256 * acc + b.toNat) 0 =
    0xdf3f619804a92fdb4057192dc43dd748ea778adc52bc498ce80524c014b81119

/-- 40_bitvector_and_hash.md R96, R89: the expansion bit by bit: bit i is bit i mod 256, the most significant of byte 0
first, of the digest of the input followed by the counter i div 256 in four bytes, for every counter that be32 is defined
on (R89); a negative length is InvalidInput. -/
def Obligations.ExpandTakesDigestBitsInCounterOrder : Prop :=
  ∀ (x : List Byte) (n : Int),
    (n < 0 → funcExpand x n = .error .invalidInput) ∧
    (0 ≤ n → ∃ v : BitSeq, funcExpand x n = .ok v ∧ v.length = n.toNat ∧
      ∀ i, i < n.toNat → i / 256 < 2 ^ 32 →
        v[i]? = some (((sha256 (x ++ [BitVec.ofNat 8 (i / 256 / 2 ^ 24), BitVec.ofNat 8 (i / 256 / 2 ^ 16),
          BitVec.ofNat 8 (i / 256 / 2 ^ 8), BitVec.ofNat 8 (i / 256)])).getD (i % 256 / 8) 0).getLsbD (7 - i % 8)))

/-- 40_bitvector_and_hash.md R97 (b), (c), (d): the prefix law, its consequence for seeds that serialise alike, and the empty
expansion. -/
def Obligations.ExpansionPrefixLaw : Prop :=
  (∀ (x : List Byte) (n1 n2 : Nat), n1 ≤ n2 → expand x n1 = slice (expand x n2) 0 n1) ∧
  (∀ s t : BitSeq, ser s = ser t → s.length ≤ t.length → genKey s = slice (genKey t) 0 (4 * s.length)) ∧
  (∀ x : List Byte, expand x 0 = [])

/-- 41_keygen_and_subkey.md R111, first sentence: for a key of whole bytes, deriving with index r is expanding the key with
r's eight bits appended, the most significant first (its last sentence: notes/assumptions/10). -/
def Obligations.DeriveIsExpandOfKeyAndIndex : Prop :=
  ∀ (key : BitSeq) (r : Byte), key.length % 8 = 0 →
    deriveSubkey key r = expand (ser (concatSeq key ((List.range 8).map fun j => r.getLsbD (7 - j)))) key.length

/-! The tables and the data path, for every configuration -/

/-- 42_sbox.md R115: the S-box of this hardware, without fixed points and not affine. -/
def Obligations.SBoxOfThisHardware : Prop :=
  (List.finRange 16).map (subCode hardware.sbox) = [0xC, 0x5, 0x6, 0xB, 0x9, 0x0, 0xA, 0xD, 0x3, 0xE, 0xF, 0x8, 0x4, 0x7, 0x1,
      0x2] ∧
    (∀ y : Code, ∃ x : Code, subCode hardware.sbox x = y) ∧ (∀ x : Code, subCode hardware.sbox x ≠ x) ∧
    (subCode hardware.sbox 1).val ^^^ (subCode hardware.sbox 2).val ^^^ (subCode hardware.sbox 3).val ^^^
      (subCode hardware.sbox 0).val = 4

/-- 42_sbox.md R116: the inverse table undoes the table, in both directions, for every bijective table; and its values for
this hardware. -/
def Obligations.InverseSBoxUndoesSBox : Prop :=
  (∀ (b : SBox) (x : Code), unsubCode b (subCode b x) = x ∧ subCode b (unsubCode b x) = x) ∧
  (List.finRange 16).map (unsubCode hardware.sbox) = [0x5, 0xE, 0xF, 0x8, 0xC, 0x1, 0x2, 0xD, 0xB, 0x4, 0x6, 0x3, 0x0, 0x7, 0x9,
    0xA]

/-- 42_sbox.md R118: each group is replaced through the table, the first element of a group the most significant bit of its
code (R117), for every configuration. -/
def Obligations.SubstituteReplacesEveryGroup : Prop :=
  ∀ (c : Config) (data : BitSeq), data.length % 4 = 0 →
    (substitute c data).length = data.length ∧
    ∀ g, g < data.length / 4 → ∃ x : Code,
      x.val = 8 * (bitOrZero data (4 * g)).toNat + 4 * (bitOrZero data (4 * g + 1)).toNat +
        2 * (bitOrZero data (4 * g + 2)).toNat + (bitOrZero data (4 * g + 3)).toNat ∧
      ∀ j, j < 4 → (substitute c data)[4 * g + j]? = some (decide ((subCode c.sbox x).val / 2 ^ (3 - j) % 2 = 1))

/-- 42_sbox.md R119: `unsubstitute` undoes `substitute` on every sequence whose length is a multiple of 4, and conversely. -/
def Obligations.UnsubstituteUndoesSubstitute : Prop :=
  ∀ (c : Config) (data : BitSeq), data.length % 4 = 0 →
    unsubstitute c (substitute c data) = data ∧ substitute c (unsubstitute c data) = data

/-- 43_pbox.md R125, R126: the closed forms of this hardware's permutation and of its inverse, and the tables of the
smallest lengths. -/
def Obligations.PermutationOfThisHardware : Prop :=
  (∀ L i : Nat, 1 ≤ L → L % 4 = 0 → i < L →
    hardware.pbox.perm L i = (i % 4 * (L / 4) + i / 4 + 1) % L ∧
    hardware.pbox.inv L i = 4 * ((i + L - 1) % L % (L / 4)) + (i + L - 1) % L / (L / 4) ∧
    hardware.pbox.inv L (hardware.pbox.perm L i) = i ∧ hardware.pbox.perm L (hardware.pbox.inv L i) = i) ∧
  (List.range 4).map (hardware.pbox.perm 4) = [1, 2, 3, 0] ∧
  (List.range 8).map (hardware.pbox.perm 8) = [1, 3, 5, 7, 2, 4, 6, 0] ∧
  (List.range 16).map (hardware.pbox.perm 16) = [1, 5, 9, 13, 2, 6, 10, 14, 3, 7, 11, 15, 4, 8, 12, 0] ∧
  (List.range 32).map (hardware.pbox.perm 32) = [1, 9, 17, 25, 2, 10, 18, 26, 3, 11, 19, 27, 4, 12, 20, 28, 5, 13, 21, 29, 6, 14,
    22, 30, 7, 15, 23, 31, 8, 16, 24, 0] ∧
  (List.range 32).map (hardware.pbox.inv 32) = [31, 0, 4, 8, 12, 16, 20, 24, 28, 1, 5, 9, 13, 17, 21, 25, 29, 2, 6, 10, 14, 18,
    22, 26, 30, 3, 7, 11, 15, 19, 23, 27]

/-- 43_pbox.md R128: bit i goes to place perm_L(i), and the number of 1 bits is unchanged, for every configuration. -/
def Obligations.PermuteMovesEachBitToItsPlace : Prop :=
  ∀ (c : Config) (data : BitSeq), 1 ≤ data.length → data.length % 4 = 0 →
    (permute c data).length = data.length ∧
    (∀ i, i < data.length → (permute c data)[c.pbox.perm data.length i]? = data[i]?) ∧
    (∀ p, p < data.length → (permute c data)[p]? = data[c.pbox.inv data.length p]?) ∧
    (permute c data).count true = data.count true

/-- 43_pbox.md R129, R130: `unpermute` moves bit p to place inv_perm_L(p), and each of the two undoes the other. -/
def Obligations.UnpermuteUndoesPermute : Prop :=
  ∀ (c : Config) (data : BitSeq), 1 ≤ data.length → data.length % 4 = 0 →
    (unpermute c data).length = data.length ∧
    (∀ p, p < data.length → (unpermute c data)[c.pbox.inv data.length p]? = data[p]?) ∧
    (∀ i, i < data.length → (unpermute c data)[i]? = data[c.pbox.perm data.length i]?) ∧
    unpermute c (permute c data) = data ∧ permute c (unpermute c data) = data

/-- 44_round.md R137: the inverse round undoes the round under the same subkey, and conversely, for every configuration. -/
def Obligations.RoundInverseUndoesRound : Prop :=
  ∀ (c : Config) (data subkey : BitSeq), 1 ≤ data.length → data.length % 4 = 0 → subkey.length = data.length →
    roundInverse c (roundForward c data subkey) subkey = data ∧
    roundForward c (roundInverse c data subkey) subkey = data

/-- 41_keygen_and_subkey.md R105, R108, 40_bitvector_and_hash.md R86, 93_implementation_defined.md U10: GEN and
`deriveSubkey` at the function level. -/
def Obligations.GenAndDeriveAtFunctionLevel : Prop :=
  (∀ seed : List Int,
    ((∃ x, x ∈ seed ∧ x ≠ 0 ∧ x ≠ 1) → funcGen seed = .error .invalidInput) ∧
    (seed = [] → funcGen seed = .error .invalidInput) ∧
    (∀ bits : BitSeq, bits ≠ [] → seed = toInts bits → funcGen seed = .ok (expand (ser bits) (4 * bits.length)))) ∧
  ∀ (key : BitSeq) (r : Int),
    (0 ≤ r → r ≤ 255 → funcDerive key r = some (expand (ser key ++ [BitVec.ofNat 8 r.toNat]) key.length)) ∧
    ((r < 0 ∨ 255 < r) → funcDerive key r = none)

/-- 45_enc_dec.md R140, R141: ENC and DEC at the function level, their checks in their order and their four rounds (the
inverse rounds in the order 3, 2, 1, 0), for every configuration. -/
def Obligations.EncAndDecAtFunctionLevel : Prop :=
  ∀ c : Config,
    FuncPairOutcomes (funcEnc c) (fun key message =>
      roundForward c (roundForward c (roundForward c (roundForward c message (deriveSubkey key 0)) (deriveSubkey key 1))
        (deriveSubkey key 2)) (deriveSubkey key 3)) ∧
    FuncPairOutcomes (funcDec c) (fun key cipher =>
      roundInverse c (roundInverse c (roundInverse c (roundInverse c cipher (deriveSubkey key 3)) (deriveSubkey key 2))
        (deriveSubkey key 1)) (deriveSubkey key 0))

/-- 45_enc_dec.md R142: DEC undoes ENC and ENC undoes DEC, for every configuration and every valid key and message of one
length; so for a fixed key each is a bijection on the sequences of that length. -/
def Obligations.DecryptionInvertsEncryption : Prop :=
  ∀ (c : Config) (key message : BitSeq), 1 ≤ message.length → message.length % 4 = 0 → key.length = message.length →
    ∃ ct pt : BitSeq, ct.length = message.length ∧ pt.length = message.length ∧
      funcEnc c (toInts key) (toInts message) = .ok ct ∧ funcDec c (toInts key) (toInts ct) = .ok message ∧
      funcDec c (toInts key) (toInts message) = .ok pt ∧ funcEnc c (toInts key) (toInts pt) = .ok message

/-- 00_scope.md R4, 60_exceptions.md R162: on lengths the registers can hold, ENC, DEC and GEN at the port leave what the
function level returns on the operand sequences: its value in R, or its error kind in STATUS.ERR. -/
def Obligations.PortAgreesWithFunctionLevel : Prop :=
  ∀ s : State, s.alen.toNat ≤ s.lmax → s.blen.toNat ≤ s.lmax →
    ∀ p : Instr × FuncResult,
      (p = (.enc, funcEnc hardware (toInts s.aSeq) (toInts s.bSeq)) ∨
        p = (.dec, funcDec hardware (toInts s.aSeq) (toInts s.bSeq)) ∨
        (p = (.gen, funcGen (toInts s.aSeq)) ∧ 4 * s.alen.toNat ≤ s.lmax)) →
      ∃ t, exec p.1 s = .next t ∧
        ((∃ v, p.2 = .ok v ∧ Completed s v t) ∨ (∃ k, p.2 = .error k ∧ Failed s k.code t))

/-- 60_exceptions.md R167, 42_sbox.md R120, 43_pbox.md R127: the tables of this hardware pass the construction check in an
engine of every capacity; a list that is no bijection on 0..15 does not, nor does a family whose map for some block length
is no bijection on 0..L-1; and no command ever reports ConfigurationError. The block lengths checked are those the registers
can hold (notes/assumptions/15). -/
def Obligations.ConfigurationErrorOnlyAtConstruction : Prop :=
  (∀ c : Capacity, checkTables c.lmax (sboxTable.toList.map Fin.val) permIndex = .ok ()) ∧
  (∀ (c : Capacity) (t : List Nat) (perm : Nat → Nat → Nat),
    (t.length ≠ 16 ∨ (∃ x, x ∈ t ∧ 16 ≤ x) ∨ ¬ t.Nodup) → checkTables c.lmax t perm = .error .configurationError) ∧
  (∀ (c : Capacity) (t : List Nat) (perm : Nat → Nat → Nat) (L : Nat), 4 ≤ L → L % 4 = 0 → L ≤ c.lmax →
    ((∃ i, i < L ∧ L ≤ perm L i) ∨ ∃ i j, i < j ∧ j < L ∧ perm L i = perm L j) →
    checkTables c.lmax t perm = .error .configurationError) ∧
  (∀ (i : Instr) (s t : State), exec i s = .next t → t.status.err ≠ 3)
end

