-- ==== Sys2Proof/Laws/Operands.lean ====
section
/-! SUPPORT. The small facts about operand forms: the binary digits of `msbNat`, lengths, and single elements. -/

namespace Sys2Proof.Machine

theorem msbNat_lt (f : Nat → Bool) (n : Nat) : msbNat f n < 2 ^ n := by
  induction n with
  | zero => simp [msbNat]
  | succ n ih =>
    have := Bool.toNat_le (f n)
    simp only [msbNat, Nat.pow_succ]
    omega

theorem testBit_msbNat (f : Nat → Bool) (n j : Nat) (hj : j < n) : (msbNat f n).testBit (n - 1 - j) = f j := by
  induction n with
  | zero => omega
  | succ n ih =>
    have hhalf : msbNat f (n + 1) / 2 = msbNat f n := by
      have := Bool.toNat_le (f n)
      simp only [msbNat]
      omega
    rcases Nat.lt_or_ge j n with h | h
    · rw [show n + 1 - 1 - j = n - 1 - j + 1 by omega, Nat.testBit_succ, hhalf, ih h]
    · obtain rfl : j = n := by omega
      rw [show j + 1 - 1 - j = 0 by omega, Nat.testBit_zero, msbNat]
      cases f j <;> simp

theorem getLsbD_ofNat_msbNat (f : Nat → Bool) (n j : Nat) (hj : j < n) :
    (BitVec.ofNat n (msbNat f n)).getLsbD (n - 1 - j) = f j := by
  rw [BitVec.getLsbD_ofNat, testBit_msbNat f n j hj]
  simp; omega

@[simp] theorem length_seqOf (x : WideReg) (n : Nat) : (seqOf x n).length = n := by simp [seqOf]

theorem getElem?_seqOf (x : WideReg) (n i : Nat) (h : i < n) : (seqOf x n)[i]? = some (bitOf x i) := by
  simp [seqOf, h]

@[simp] theorem length_packWords (nw : Nat) (v : BitSeq) : (packWords nw v).length = nw := by simp [packWords]

theorem getD_packWords (nw : Nat) (v : BitSeq) (k : Nat) (h : k < nw) : (packWords nw v).getD k 0 = wordOfBits v k := by
  simp [packWords, h]

theorem bitOf_packWords (nw : Nat) (v : BitSeq) (i : Nat) (h : i < 32 * nw) : bitOf (packWords nw v) i = bitOrZero v i := by
  rw [bitOf, getD_packWords _ _ _ (by omega), wordOfBits,
    getLsbD_ofNat_msbNat (fun j => bitOrZero v (32 * (i / 32) + j)) 32 (i % 32) (Nat.mod_lt _ (by decide)),
    Nat.div_add_mod]

theorem seqOf_packWords (nw : Nat) (v : BitSeq) (h : v.length ≤ 32 * nw) : seqOf (packWords nw v) v.length = v := by
  apply List.ext_getElem?
  intro i
  rcases Nat.lt_or_ge i v.length with hi | hi
  · rw [getElem?_seqOf _ _ _ hi, bitOf_packWords nw v i (by omega)]
    simp [bitOrZero, List.getElem?_eq_getElem hi]
  · simp [hi]

theorem bitOrZero_of_length_le (v : BitSeq) (i : Nat) (h : v.length ≤ i) : bitOrZero v i = false := by
  simp [bitOrZero, h]

@[simp] theorem getD_replicate_zero (n k : Nat) : (List.replicate n (0 : Word)).getD k 0 = 0 := by
  simp only [List.getD_eq_getElem?_getD, List.getElem?_replicate]
  split <;> rfl

theorem bitOf_replicate_zero (n i : Nat) : bitOf (List.replicate n 0) i = false := by
  rw [bitOf, getD_replicate_zero]
  simp

@[simp] theorem length_ser (s : BitSeq) : (ser s).length = (s.length + 7) / 8 := by simp [ser]

@[simp] theorem length_unser (d : List Byte) (n : Nat) : (unser d n).length = n := by simp [unser]

@[simp] theorem length_be32 (c : Nat) : (be32 c).length = 4 := rfl

@[simp] theorem length_be64 (c : Nat) : (be64 c).length = 8 := rfl

@[simp] theorem length_xorSeq (s t : BitSeq) : (xorSeq s t).length = min s.length t.length := by simp [xorSeq]

end Sys2Proof.Machine
end

