-- ==== Sys2Proof/Laws/Hash.lean ====
section
/-! SUPPORT. Lengths of digests, digest streams and expansions. -/

namespace Sys2Proof.Machine

@[simp] theorem HashValue.length_digest (hv : HashValue) : hv.digest.length = 32 := rfl

@[simp] theorem length_sha256 (m : List Byte) : (sha256 m).length = 32 := HashValue.length_digest _

@[simp] theorem length_digestStream (x : List Byte) (n : Nat) : (digestStream x n).length = 32 * n := by
  induction n with
  | zero => rfl
  | succ n ih =>
    rw [digestStream, List.range_succ, List.flatMap_append, List.length_append]
    rw [digestStream] at ih
    simp [ih]
    omega

@[simp] theorem length_expand (x : List Byte) (n : Nat) : (expand x n).length = n := by simp [expand]

@[simp] theorem length_genKey (seed : BitSeq) : (genKey seed).length = 4 * seed.length := by simp [genKey]

@[simp] theorem length_deriveSubkey (key : BitSeq) (r : Byte) : (deriveSubkey key r).length = key.length := by
  simp [deriveSubkey]

end Sys2Proof.Machine
end

