-- ==== Sys2Proof/Laws/Cipher.lean ====
section
/-! SUPPORT. Lengths along the data path, and the four rounds written out. -/

namespace Sys2Proof.Machine

@[simp] theorem length_codeGroup (y : Code) : (codeGroup y).length = 4 := rfl

theorem length_mapGroups (f : Code → Code) (data : BitSeq) : (mapGroups f data).length = 4 * (data.length / 4) := by
  induction data using mapGroups.induct with
  | case1 g0 g1 g2 g3 rest ih =>
    rw [mapGroups, List.length_append, ih, length_codeGroup]
    simp only [List.length_cons]
    omega
  | case2 data h =>
    have hlen : data.length < 4 := by
      match data, h with
      | [], _ => decide
      | [_], _ => simp
      | [_, _], _ => simp
      | [_, _, _], _ => simp
      | g0 :: g1 :: g2 :: g3 :: rest, h => exact absurd rfl (h g0 g1 g2 g3 rest)
    rw [mapGroups]
    · simp only [List.length_nil]
      omega
    · exact h

theorem length_substitute (c : Config) (data : BitSeq) : (substitute c data).length = 4 * (data.length / 4) :=
  length_mapGroups _ _

theorem length_unsubstitute (c : Config) (data : BitSeq) : (unsubstitute c data).length = 4 * (data.length / 4) :=
  length_mapGroups _ _

@[simp] theorem length_permute (c : Config) (data : BitSeq) : (permute c data).length = data.length := by simp [permute]

@[simp] theorem length_unpermute (c : Config) (data : BitSeq) : (unpermute c data).length = data.length := by
  simp [unpermute]

theorem length_roundForward (c : Config) (data subkey : BitSeq) :
    (roundForward c data subkey).length = 4 * (min data.length subkey.length / 4) := by
  simp [roundForward, length_substitute]

theorem length_roundInverse (c : Config) (data subkey : BitSeq) :
    (roundInverse c data subkey).length = min (4 * (data.length / 4)) subkey.length := by
  simp [roundInverse, length_unsubstitute]

/-- The four rounds of ENC, first round innermost. -/
theorem encrypt_eq (c : Config) (key message : BitSeq) :
    encrypt c key message =
      roundForward c (roundForward c (roundForward c (roundForward c message (deriveSubkey key 0)) (deriveSubkey key 1))
        (deriveSubkey key 2)) (deriveSubkey key 3) := by
  simp [encrypt, roundIndices, List.range_succ]

/-- The four rounds of DEC, last subkey innermost. -/
theorem decrypt_eq (c : Config) (key cipher : BitSeq) :
    decrypt c key cipher =
      roundInverse c (roundInverse c (roundInverse c (roundInverse c cipher (deriveSubkey key 3)) (deriveSubkey key 2))
        (deriveSubkey key 1)) (deriveSubkey key 0) := by
  simp [decrypt, roundIndices, List.range_succ]

theorem length_encrypt_le (c : Config) (key message : BitSeq) : (encrypt c key message).length ≤ message.length := by
  simp only [encrypt_eq, length_roundForward]
  omega

theorem length_decrypt_le (c : Config) (key cipher : BitSeq) : (decrypt c key cipher).length ≤ cipher.length := by
  simp only [decrypt_eq, length_roundInverse]
  omega

end Sys2Proof.Machine
end

