-- ==== Sys2Proof/Laws/State.lean ====
section
/-! SUPPORT. What each update of the state leaves in each field, true by definition, so that no later proof unfolds a
record update. -/

namespace Sys2Proof.Machine

section Capacity
variable (s : State)
/-- The words of a wide register hold LMAX bits exactly. -/
theorem State.words : 32 * s.nw = s.lmax := by
  have := s.capacity.multiple
  simp only [State.nw, State.lmax, Capacity.nw]
  omega
theorem State.lmax_le : s.lmax ≤ 65504 := s.capacity.at_most
theorem State.size_eq : s.size = 0x40 + 12 * s.nw := rfl
end Capacity

section WriteResult
variable (s : State) (v : BitSeq)
@[simp] theorem State.writeResult_a : (s.writeResult v).a = s.a := rfl
@[simp] theorem State.writeResult_b : (s.writeResult v).b = s.b := rfl
@[simp] theorem State.writeResult_r : (s.writeResult v).r = packWords s.nw v := rfl
@[simp] theorem State.writeResult_alen : (s.writeResult v).alen = s.alen := rfl
@[simp] theorem State.writeResult_blen : (s.writeResult v).blen = s.blen := rfl
@[simp] theorem State.writeResult_nlen : (s.writeResult v).nlen = s.nlen := rfl
@[simp] theorem State.writeResult_rlen : (s.writeResult v).rlen = BitVec.ofNat 16 v.length := rfl
@[simp] theorem State.writeResult_status : (s.writeResult v).status = Status.completed := rfl
@[simp] theorem State.writeResult_capacity : (s.writeResult v).capacity = s.capacity := rfl
@[simp] theorem State.writeResult_lmax : (s.writeResult v).lmax = s.lmax := rfl
@[simp] theorem State.writeResult_nw : (s.writeResult v).nw = s.nw := rfl
@[simp] theorem State.writeResult_baseIndex : (s.writeResult v).baseIndex = s.baseIndex := rfl
@[simp] theorem State.writeResult_pending : (s.writeResult v).pending = s.pending := rfl
@[simp] theorem State.writeResult_returned : (s.writeResult v).returned = s.returned := rfl
end WriteResult

section Fail
variable (s : State) (k : ErrorKind)
@[simp] theorem State.fail_a : (s.fail k).a = s.a := rfl
@[simp] theorem State.fail_b : (s.fail k).b = s.b := rfl
@[simp] theorem State.fail_r : (s.fail k).r = List.replicate s.nw 0 := rfl
@[simp] theorem State.fail_alen : (s.fail k).alen = s.alen := rfl
@[simp] theorem State.fail_blen : (s.fail k).blen = s.blen := rfl
@[simp] theorem State.fail_nlen : (s.fail k).nlen = s.nlen := rfl
@[simp] theorem State.fail_rlen : (s.fail k).rlen = 0 := rfl
@[simp] theorem State.fail_status : (s.fail k).status = Status.failed k := rfl
@[simp] theorem State.fail_capacity : (s.fail k).capacity = s.capacity := rfl
@[simp] theorem State.fail_lmax : (s.fail k).lmax = s.lmax := rfl
@[simp] theorem State.fail_nw : (s.fail k).nw = s.nw := rfl
@[simp] theorem State.fail_baseIndex : (s.fail k).baseIndex = s.baseIndex := rfl
@[simp] theorem State.fail_pending : (s.fail k).pending = s.pending := rfl
@[simp] theorem State.fail_returned : (s.fail k).returned = s.returned := rfl
end Fail

section Move
variable (s : State)
@[simp] theorem State.moveToA_a : s.moveToA.a = s.r := rfl
@[simp] theorem State.moveToA_b : s.moveToA.b = s.b := rfl
@[simp] theorem State.moveToA_r : s.moveToA.r = s.r := rfl
@[simp] theorem State.moveToA_alen : s.moveToA.alen = s.rlen := rfl
@[simp] theorem State.moveToA_blen : s.moveToA.blen = s.blen := rfl
@[simp] theorem State.moveToA_nlen : s.moveToA.nlen = s.nlen := rfl
@[simp] theorem State.moveToA_rlen : s.moveToA.rlen = s.rlen := rfl
@[simp] theorem State.moveToA_status : s.moveToA.status = Status.completed := rfl
@[simp] theorem State.moveToA_capacity : s.moveToA.capacity = s.capacity := rfl
@[simp] theorem State.moveToA_lmax : s.moveToA.lmax = s.lmax := rfl
@[simp] theorem State.moveToA_nw : s.moveToA.nw = s.nw := rfl
@[simp] theorem State.moveToA_baseIndex : s.moveToA.baseIndex = s.baseIndex := rfl
@[simp] theorem State.moveToA_pending : s.moveToA.pending = s.pending := rfl
@[simp] theorem State.moveToA_returned : s.moveToA.returned = s.returned := rfl
@[simp] theorem State.moveToB_a : s.moveToB.a = s.a := rfl
@[simp] theorem State.moveToB_b : s.moveToB.b = s.r := rfl
@[simp] theorem State.moveToB_r : s.moveToB.r = s.r := rfl
@[simp] theorem State.moveToB_alen : s.moveToB.alen = s.alen := rfl
@[simp] theorem State.moveToB_blen : s.moveToB.blen = s.rlen := rfl
@[simp] theorem State.moveToB_nlen : s.moveToB.nlen = s.nlen := rfl
@[simp] theorem State.moveToB_rlen : s.moveToB.rlen = s.rlen := rfl
@[simp] theorem State.moveToB_status : s.moveToB.status = Status.completed := rfl
@[simp] theorem State.moveToB_capacity : s.moveToB.capacity = s.capacity := rfl
@[simp] theorem State.moveToB_lmax : s.moveToB.lmax = s.lmax := rfl
@[simp] theorem State.moveToB_nw : s.moveToB.nw = s.nw := rfl
@[simp] theorem State.moveToB_baseIndex : s.moveToB.baseIndex = s.baseIndex := rfl
@[simp] theorem State.moveToB_pending : s.moveToB.pending = s.pending := rfl
@[simp] theorem State.moveToB_returned : s.moveToB.returned = s.returned := rfl
end Move

section HostReset
variable (s : State)
@[simp] theorem State.hostReset_a : s.hostReset.a = List.replicate s.nw 0 := rfl
@[simp] theorem State.hostReset_b : s.hostReset.b = List.replicate s.nw 0 := rfl
@[simp] theorem State.hostReset_r : s.hostReset.r = List.replicate s.nw 0 := rfl
@[simp] theorem State.hostReset_alen : s.hostReset.alen = 0 := rfl
@[simp] theorem State.hostReset_blen : s.hostReset.blen = 0 := rfl
@[simp] theorem State.hostReset_nlen : s.hostReset.nlen = 0 := rfl
@[simp] theorem State.hostReset_rlen : s.hostReset.rlen = 0 := rfl
@[simp] theorem State.hostReset_status : s.hostReset.status = State.reset.status := rfl
@[simp] theorem State.hostReset_capacity : s.hostReset.capacity = s.capacity := rfl
@[simp] theorem State.hostReset_lmax : s.hostReset.lmax = s.lmax := rfl
@[simp] theorem State.hostReset_nw : s.hostReset.nw = s.nw := rfl
@[simp] theorem State.hostReset_baseIndex : s.hostReset.baseIndex = s.baseIndex := rfl
@[simp] theorem State.hostReset_pending : s.hostReset.pending = s.pending := rfl
@[simp] theorem State.hostReset_returned : s.hostReset.returned = s.returned := rfl
end HostReset

section HostRead
variable (reg : Reg) (s : State)
@[simp] theorem hostRead_a : (hostRead reg s).a = s.a := rfl
@[simp] theorem hostRead_b : (hostRead reg s).b = s.b := rfl
@[simp] theorem hostRead_r : (hostRead reg s).r = s.r := rfl
@[simp] theorem hostRead_alen : (hostRead reg s).alen = s.alen := rfl
@[simp] theorem hostRead_blen : (hostRead reg s).blen = s.blen := rfl
@[simp] theorem hostRead_nlen : (hostRead reg s).nlen = s.nlen := rfl
@[simp] theorem hostRead_rlen : (hostRead reg s).rlen = s.rlen := rfl
@[simp] theorem hostRead_status : (hostRead reg s).status = s.status := rfl
@[simp] theorem hostRead_capacity : (hostRead reg s).capacity = s.capacity := rfl
@[simp] theorem hostRead_lmax : (hostRead reg s).lmax = s.lmax := rfl
@[simp] theorem hostRead_nw : (hostRead reg s).nw = s.nw := rfl
@[simp] theorem hostRead_baseIndex : (hostRead reg s).baseIndex = s.baseIndex := rfl
@[simp] theorem hostRead_pending : (hostRead reg s).pending = s.pending := rfl
@[simp] theorem hostRead_returned : (hostRead reg s).returned = s.returned ++ [readReg reg s] := rfl
end HostRead

section WriteReg
variable (reg : Reg) (v : Word) (s : State)
@[simp] theorem writeReg_length_a : (writeReg reg v s).a.length = s.a.length := by cases reg <;> simp [writeReg]
@[simp] theorem writeReg_length_b : (writeReg reg v s).b.length = s.b.length := by cases reg <;> simp [writeReg]
@[simp] theorem writeReg_r : (writeReg reg v s).r = s.r := by cases reg <;> rfl
@[simp] theorem writeReg_rlen : (writeReg reg v s).rlen = s.rlen := by cases reg <;> rfl
@[simp] theorem writeReg_status : (writeReg reg v s).status = s.status := by cases reg <;> rfl
@[simp] theorem writeReg_capacity : (writeReg reg v s).capacity = s.capacity := by cases reg <;> rfl
@[simp] theorem writeReg_lmax : (writeReg reg v s).lmax = s.lmax := by cases reg <;> rfl
@[simp] theorem writeReg_nw : (writeReg reg v s).nw = s.nw := by cases reg <;> rfl
@[simp] theorem writeReg_baseIndex : (writeReg reg v s).baseIndex = s.baseIndex := by cases reg <;> rfl
@[simp] theorem writeReg_pending : (writeReg reg v s).pending = s.pending := by cases reg <;> rfl
@[simp] theorem writeReg_returned : (writeReg reg v s).returned = s.returned := by cases reg <;> rfl
end WriteReg

section Status
@[simp] theorem Status.completed_done : Status.completed.done = true := rfl
@[simp] theorem Status.completed_err : Status.completed.err = 0 := rfl
@[simp] theorem Status.failed_done (k : ErrorKind) : (Status.failed k).done = true := rfl
@[simp] theorem Status.failed_err (k : ErrorKind) : (Status.failed k).err = k.code := rfl
@[simp] theorem ErrorKind.code_invalidInput : ErrorKind.invalidInput.code = 1 := rfl
@[simp] theorem ErrorKind.code_sizeMismatch : ErrorKind.sizeMismatch.code = 2 := rfl
@[simp] theorem ErrorKind.code_configurationError : ErrorKind.configurationError.code = 3 := rfl
@[simp] theorem ErrorKind.code_capacityExceeded : ErrorKind.capacityExceeded.code = 4 := rfl
@[simp] theorem ErrorKind.code_illegalCommand : ErrorKind.illegalCommand.code = 5 := rfl
end Status

/-! Every update keeps the number of words of the wide registers (10_state.md R20). -/

theorem State.Sized.writeResult {s : State} (h : s.Sized) (v : BitSeq) : (s.writeResult v).Sized :=
  ⟨h.a, h.b, by simp [packWords]⟩
theorem State.Sized.fail {s : State} (h : s.Sized) (k : ErrorKind) : (s.fail k).Sized := ⟨h.a, h.b, by simp⟩
theorem State.Sized.moveToA {s : State} (h : s.Sized) : s.moveToA.Sized := ⟨h.r, h.b, h.r⟩
theorem State.Sized.moveToB {s : State} (h : s.Sized) : s.moveToB.Sized := ⟨h.a, h.r, h.r⟩
theorem State.Sized.hostRead {s : State} (h : s.Sized) (reg : Reg) : (Machine.hostRead reg s).Sized := ⟨h.a, h.b, h.r⟩
theorem State.Sized.writeReg {s : State} (h : s.Sized) (reg : Reg) (v : Word) : (Machine.writeReg reg v s).Sized :=
  ⟨by rw [writeReg_length_a, writeReg_nw, h.a], by rw [writeReg_length_b, writeReg_nw, h.b],
    by rw [writeReg_r, writeReg_nw, h.r]⟩
theorem State.sized_hostReset (s : State) : s.hostReset.Sized := ⟨by simp, by simp, by simp⟩
theorem State.sized_reset : State.reset.Sized := by constructor <;> rfl

/-- The command write that `withFetchWord` adds changes nothing but the pending moves. -/
@[simp] theorem State.withFetchWord_pending (s : State) (nbits w : Nat) :
    (s.withFetchWord nbits w).pending = commandWrite s nbits w :: s.pending := rfl

end Sys2Proof.Machine
end

