-- ==== Sys2Proof/Laws/Ops.lean ====
section
/-! SUPPORT. One lemma for each shared operation: everything it can answer. -/

namespace Sys2Proof.Machine

/-- `finish` always answers a next state: the failure its check names, or its value written. -/
theorem finish_cases (check : Option ErrorKind) (value : State → BitSeq) (s : State) :
    (∃ k, check = some k ∧ finish check value s = .next (s.fail k)) ∨
      (check = none ∧ finish check value s = .next (s.writeResult (value s))) := by
  cases check with
  | none => exact .inr ⟨rfl, rfl⟩
  | some k => exact .inl ⟨k, rfl, rfl⟩

/-- The ends of a command on B alone. -/
theorem streamCommand_cases (f : BitSeq → BitSeq) (s : State) :
    (∃ k, streamCheck s.lmax s.blen.toNat = some k ∧ streamCommand f s = .next (s.fail k)) ∨
      (streamCheck s.lmax s.blen.toNat = none ∧ streamCommand f s = .next (s.writeResult (f s.bSeq))) :=
  finish_cases _ _ s

/-- The ends of a command on the pair A, B. -/
theorem pairCommand_cases (f : BitSeq → BitSeq → BitSeq) (s : State) :
    (∃ k, pairCheck s.lmax s.alen.toNat s.blen.toNat = some k ∧ pairCommand f s = .next (s.fail k)) ∨
      (pairCheck s.lmax s.alen.toNat s.blen.toNat = none ∧ pairCommand f s = .next (s.writeResult (f s.aSeq s.bSeq))) :=
  finish_cases _ _ s

/-- The checks over the lengths as numbers. -/
theorem expandCheck_eq (l m n : Nat) :
    expandCheck l m n = if l < m ∨ l < n then some .capacityExceeded else none := by
  simp [expandCheck, overCapacity]

theorem genCheck_eq (l m : Nat) :
    genCheck l m = if l < 4 * m then some .capacityExceeded else if m = 0 then some .invalidInput else none := by
  simp [genCheck, overCapacity]

theorem deriveCheck_eq (l m : Nat) : deriveCheck l m = if l < m then some .capacityExceeded else none := by
  simp [deriveCheck, overCapacity]

theorem streamCheck_eq (l n : Nat) :
    streamCheck l n =
      if l < n then some .capacityExceeded else if n = 0 ∨ n % 4 ≠ 0 then some .invalidInput else none := by
  simp [streamCheck, overCapacity, validLen]

theorem pairCheck_eq (l m n : Nat) :
    pairCheck l m n =
      if l < m ∨ l < n then some .capacityExceeded
      else if (m = 0 ∨ m % 4 ≠ 0) ∨ n = 0 ∨ n % 4 ≠ 0 then some .invalidInput
      else if m ≠ n then some .sizeMismatch else none := by
  simp [pairCheck, overCapacity, validLen]

/-- What a passed stream check says. -/
theorem streamCheck_eq_none {l n : Nat} (h : streamCheck l n = none) : n ≤ l ∧ 1 ≤ n ∧ n % 4 = 0 := by
  rw [streamCheck_eq] at h
  repeat' split at h
  all_goals first | contradiction | omega

/-- What a passed pair check says. -/
theorem pairCheck_eq_none {l m n : Nat} (h : pairCheck l m n = none) :
    m ≤ l ∧ n ≤ l ∧ 1 ≤ m ∧ m % 4 = 0 ∧ m = n := by
  rw [pairCheck_eq] at h
  repeat' split at h
  all_goals first | contradiction | omega

/-- The kinds a check names: never `ConfigurationError` or `IllegalCommand`. -/
theorem streamCheck_kind {l n : Nat} {k : ErrorKind} (h : streamCheck l n = some k) :
    k = .capacityExceeded ∨ k = .invalidInput := by
  rw [streamCheck_eq] at h
  repeat' split at h
  all_goals simp_all

theorem pairCheck_kind {l m n : Nat} {k : ErrorKind} (h : pairCheck l m n = some k) :
    k = .capacityExceeded ∨ k = .invalidInput ∨ k = .sizeMismatch := by
  rw [pairCheck_eq] at h
  repeat' split at h
  all_goals simp_all

/-- Where an access goes: it is located exactly when its size is 4 and its address a multiple of 4 inside the register
space, and else refused by name. -/
theorem locate_cases (s : State) (addr size : Nat) :
    (size = 4 ∧ addr % 4 = 0 ∧ s.base ≤ addr ∧ addr < s.base + s.size ∧
        locate s addr size = .ok (regAt s.nw (addr - s.base))) ∨
      (size ≠ 4 ∧ locate s addr size = .error .accessWidth) ∨
      (size = 4 ∧ addr % 4 ≠ 0 ∧ locate s addr size = .error .accessMisaligned) ∨
      (size = 4 ∧ addr % 4 = 0 ∧ (addr < s.base ∨ s.base + s.size ≤ addr) ∧
        locate s addr size = .error .accessOutside) := by
  unfold locate
  split
  · exact .inr (.inl ⟨‹_›, rfl⟩)
  · split
    · exact .inr (.inr (.inl ⟨by omega, ‹_›, rfl⟩))
    · split
      · exact .inr (.inr (.inr ⟨by omega, by omega, ‹_›, rfl⟩))
      · exact .inl ⟨by omega, by omega, by omega, by omega, rfl⟩

end Sys2Proof.Machine
end

