-- ==== Sys2Proof/Laws/Commands.lean ====
section
/-! SUPPORT. Everything a command can do, said once. -/

namespace Sys2Proof.Machine

@[simp] theorem length_aSeq (s : State) : s.aSeq.length = s.alen.toNat := length_seqOf _ _
@[simp] theorem length_bSeq (s : State) : s.bSeq.length = s.blen.toNat := length_seqOf _ _
@[simp] theorem length_rSeq (s : State) : s.rSeq.length = s.rlen.toNat := length_seqOf _ _

/-- Each command written out over its shape: its checks and its function's value. -/
theorem exec_expand (s : State) : exec .expand s =
    finish (expandCheck s.lmax s.alen.toNat s.nlen.toNat) (fun s => expand (ser s.aSeq) s.nlen.toNat) s := by
  rw [exec, execExpand]
theorem exec_gen (s : State) : exec .gen s = finish (genCheck s.lmax s.alen.toNat) (fun s => genKey s.aSeq) s := by
  rw [exec, execGen]
theorem exec_derive {ridx : Nat} (h : ridx ≤ 255) (s : State) : exec (.derive ridx) s =
    finish (deriveCheck s.lmax s.alen.toNat) (fun s => deriveSubkey s.aSeq (BitVec.ofNat 8 ridx)) s := by
  rw [exec, execDerive, if_pos h]
theorem exec_derive_undefined {ridx : Nat} (h : ¬ ridx ≤ 255) (s : State) :
    exec (.derive ridx) s = .refused .roundIndexUndefined := by
  rw [exec, execDerive, if_neg h]
theorem exec_sub (s : State) : exec .sub s =
    finish (streamCheck s.lmax s.blen.toNat) (fun s => substitute hardware s.bSeq) s := by
  rw [exec, execSub, streamCommand]
theorem exec_unsub (s : State) : exec .unsub s =
    finish (streamCheck s.lmax s.blen.toNat) (fun s => unsubstitute hardware s.bSeq) s := by
  rw [exec, execUnsub, streamCommand]
theorem exec_perm (s : State) : exec .perm s =
    finish (streamCheck s.lmax s.blen.toNat) (fun s => permute hardware s.bSeq) s := by
  rw [exec, execPerm, streamCommand]
theorem exec_unperm (s : State) : exec .unperm s =
    finish (streamCheck s.lmax s.blen.toNat) (fun s => unpermute hardware s.bSeq) s := by
  rw [exec, execUnperm, streamCommand]
theorem exec_rndf (s : State) : exec .rndf s =
    finish (pairCheck s.lmax s.alen.toNat s.blen.toNat) (fun s => roundForward hardware s.bSeq s.aSeq) s := by
  rw [exec, execRndf, pairCommand]
theorem exec_rndi (s : State) : exec .rndi s =
    finish (pairCheck s.lmax s.alen.toNat s.blen.toNat) (fun s => roundInverse hardware s.bSeq s.aSeq) s := by
  rw [exec, execRndi, pairCommand]
theorem exec_enc (s : State) : exec .enc s =
    finish (pairCheck s.lmax s.alen.toNat s.blen.toNat) (fun s => encrypt hardware s.aSeq s.bSeq) s := by
  rw [exec, execEnc, pairCommand]
theorem exec_dec (s : State) : exec .dec s =
    finish (pairCheck s.lmax s.alen.toNat s.blen.toNat) (fun s => decrypt hardware s.aSeq s.bSeq) s := by
  rw [exec, execDec, pairCommand]
theorem exec_mva (s : State) : exec .mva s = .next s.moveToA := by rw [exec, execMva]
theorem exec_mvb (s : State) : exec .mvb s = .next s.moveToB := by rw [exec, execMvb]

/-- A next state of a command is a failure of one of the three kinds a command reports, a written result that fits R, or
one of the two transfers. -/
theorem exec_cases {i : Instr} {s t : State} (h : exec i s = .next t) :
    (∃ k, (k = .capacityExceeded ∨ k = .invalidInput ∨ k = .sizeMismatch) ∧ t = s.fail k) ∨
      (∃ v : BitSeq, v.length ≤ s.lmax ∧ t = s.writeResult v) ∨ (i = .mva ∧ t = s.moveToA) ∨
      (i = .mvb ∧ t = s.moveToB) := by
  have stream : ∀ f : BitSeq → BitSeq, (∀ v, (f v).length ≤ v.length) → streamCommand f s = .next t →
      (∃ k, (k = .capacityExceeded ∨ k = .invalidInput ∨ k = .sizeMismatch) ∧ t = s.fail k) ∨
        (∃ v : BitSeq, v.length ≤ s.lmax ∧ t = s.writeResult v) := by
    intro f hf h
    obtain ⟨k, hk, he⟩ | ⟨hc, he⟩ := streamCommand_cases f s
    · rw [he] at h
      cases h
      exact .inl ⟨k, by rcases streamCheck_kind hk with h | h <;> simp [h], rfl⟩
    · rw [he] at h
      cases h
      have := (streamCheck_eq_none hc).1
      exact .inr ⟨_, le_trans (hf _) (by simpa using this), rfl⟩
  have pair : ∀ f : BitSeq → BitSeq → BitSeq, (∀ u v, (f u v).length ≤ v.length) → pairCommand f s = .next t →
      (∃ k, (k = .capacityExceeded ∨ k = .invalidInput ∨ k = .sizeMismatch) ∧ t = s.fail k) ∨
        (∃ v : BitSeq, v.length ≤ s.lmax ∧ t = s.writeResult v) := by
    intro f hf h
    obtain ⟨k, hk, he⟩ | ⟨hc, he⟩ := pairCommand_cases f s
    · rw [he] at h
      cases h
      exact .inl ⟨k, pairCheck_kind hk, rfl⟩
    · rw [he] at h
      cases h
      have := (pairCheck_eq_none hc).2.1
      exact .inr ⟨_, le_trans (hf _ _) (by simpa using this), rfl⟩
  have widen : ((∃ k, (k = .capacityExceeded ∨ k = .invalidInput ∨ k = .sizeMismatch) ∧ t = s.fail k) ∨
        (∃ v : BitSeq, v.length ≤ s.lmax ∧ t = s.writeResult v)) →
      (∃ k, (k = .capacityExceeded ∨ k = .invalidInput ∨ k = .sizeMismatch) ∧ t = s.fail k) ∨
      (∃ v : BitSeq, v.length ≤ s.lmax ∧ t = s.writeResult v) ∨ (i = .mva ∧ t = s.moveToA) ∨
      (i = .mvb ∧ t = s.moveToB) := by
    rintro (h | h)
    · exact .inl h
    · exact .inr (.inl h)
  cases i with
  | expand =>
    apply widen
    rcases finish_cases (expandCheck s.lmax s.alen.toNat s.nlen.toNat) (fun s => expand (ser s.aSeq) s.nlen.toNat) s with
      ⟨k, hk, he⟩ | ⟨hc, he⟩ <;> rw [exec, execExpand, he] at h <;> cases h
    · rw [expandCheck_eq] at hk
      split at hk <;> simp_all
    · rw [expandCheck_eq] at hc
      split at hc <;> simp at hc
      exact .inr ⟨_, by simpa using (by omega : s.nlen.toNat ≤ s.lmax), rfl⟩
  | gen =>
    apply widen
    rcases finish_cases (genCheck s.lmax s.alen.toNat) (fun s => genKey s.aSeq) s with
      ⟨k, hk, he⟩ | ⟨hc, he⟩ <;> rw [exec, execGen, he] at h <;> cases h
    · rw [genCheck_eq] at hk
      repeat' split at hk
      all_goals simp_all
    · rw [genCheck_eq] at hc
      repeat' split at hc
      all_goals simp at hc
      exact .inr ⟨_, by simpa using (by omega : 4 * s.alen.toNat ≤ s.lmax), rfl⟩
  | derive ridx =>
    apply widen
    rw [exec, execDerive] at h
    split at h
    · rcases finish_cases (deriveCheck s.lmax s.alen.toNat) (fun s => deriveSubkey s.aSeq (BitVec.ofNat 8 ridx)) s with
        ⟨k, hk, he⟩ | ⟨hc, he⟩ <;> rw [he] at h <;> cases h
      · rw [deriveCheck_eq] at hk
        split at hk <;> simp_all
      · rw [deriveCheck_eq] at hc
        split at hc <;> simp at hc
        exact .inr ⟨_, by simpa using (by omega : s.alen.toNat ≤ s.lmax), rfl⟩
    · cases h
  | sub => exact widen (stream (substitute hardware) (fun v => by rw [length_substitute]; omega) h)
  | unsub => exact widen (stream (unsubstitute hardware) (fun v => by rw [length_unsubstitute]; omega) h)
  | perm => exact widen (stream (permute hardware) (fun v => by simp) h)
  | unperm => exact widen (stream (unpermute hardware) (fun v => by simp) h)
  | rndf =>
    exact widen (pair (fun u v => roundForward hardware v u) (fun u v => by simp only [length_roundForward]; omega) h)
  | rndi =>
    exact widen (pair (fun u v => roundInverse hardware v u) (fun u v => by simp only [length_roundInverse]; omega) h)
  | enc => exact widen (pair (encrypt hardware) (length_encrypt_le hardware) h)
  | dec => exact widen (pair (decrypt hardware) (length_decrypt_le hardware) h)
  | mva => cases h; exact .inr (.inr (.inl ⟨rfl, rfl⟩))
  | mvb => cases h; exact .inr (.inr (.inr ⟨rfl, rfl⟩))

end Sys2Proof.Machine
end

