-- ==== Sys2Proof/Laws/PerInstr.lean ====
section
/-! SUPPORT. The family TableRow: the encoding of every well-formed command is selected by the row of spec/opcode_table.json
that bears its mnemonic (30_encoding.md R66, R68). -/

namespace Sys2Proof.Laws.TableRow

/-- The row of a command selects its encoding. -/
def Statement (i : Instr) : Prop :=
  i.WellFormed → ∃ row, row ∈ opcodeTable ∧ row.mnemonic = mnemonicOf i ∧ row.selects (encode i) = true

theorem expand : Statement .expand := fun _ => ⟨⟨"EXPAND", 0x00000010, 0xFFFFFFFF⟩, by decide⟩
theorem gen : Statement .gen := fun _ => ⟨⟨"GEN", 0x00000001, 0xFFFFFFFF⟩, by decide⟩
theorem derive (ridx : Nat) : Statement (.derive ridx) := fun _ =>
  ⟨⟨"DERIVE", 0x00000011, 0xFFFF00FF⟩, by decide, rfl, by
    have h : ∀ r : BitVec 8, ((0 : BitVec 16) ++ r ++ (0x11 : BitVec 8)) &&& 0xFFFF00FF = (0x00000011 : Word) := by
      decide +kernel
    simpa [OpcodeRow.selects, encode, ridxOf, opcodeOf] using h (BitVec.ofNat 8 ridx)⟩
theorem sub : Statement .sub := fun _ => ⟨⟨"SUB", 0x00000020, 0xFFFFFFFF⟩, by decide⟩
theorem unsub : Statement .unsub := fun _ => ⟨⟨"UNSUB", 0x00000021, 0xFFFFFFFF⟩, by decide⟩
theorem perm : Statement .perm := fun _ => ⟨⟨"PERM", 0x00000022, 0xFFFFFFFF⟩, by decide⟩
theorem unperm : Statement .unperm := fun _ => ⟨⟨"UNPERM", 0x00000023, 0xFFFFFFFF⟩, by decide⟩
theorem rndf : Statement .rndf := fun _ => ⟨⟨"RNDF", 0x00000030, 0xFFFFFFFF⟩, by decide⟩
theorem rndi : Statement .rndi := fun _ => ⟨⟨"RNDI", 0x00000031, 0xFFFFFFFF⟩, by decide⟩
theorem enc : Statement .enc := fun _ => ⟨⟨"ENC", 0x00000002, 0xFFFFFFFF⟩, by decide⟩
theorem dec : Statement .dec := fun _ => ⟨⟨"DEC", 0x00000003, 0xFFFFFFFF⟩, by decide⟩
theorem mva : Statement .mva := fun _ => ⟨⟨"MVA", 0x00000040, 0xFFFFFFFF⟩, by decide⟩
theorem mvb : Statement .mvb := fun _ => ⟨⟨"MVB", 0x00000041, 0xFFFFFFFF⟩, by decide⟩

end Sys2Proof.Laws.TableRow
end

