-- ==== Sys2Proof/Laws/Step.lean ====
section
/-! SUPPORT. Everything a step can do, said once. -/

namespace Sys2Proof.Machine

/-- Where an access goes does not depend on the moves still to be made. -/
@[simp] theorem locate_pending (s : State) (moves : List HostAction) :
    locate { s with pending := moves } = locate s := rfl

/-- A next state of a step: the idle engine, or the first pending move performed: a command, a failed decoding, a register
write, a register read or the reset. -/
theorem step_cases {s t : State} (h : step s = .next t) :
    (s.pending = [] ∧ t = s) ∨
      ∃ act rest, s.pending = act :: rest ∧
        ((∃ addr v i, act = .memWrite addr 4 v ∧ regAt s.nw (addr - s.base) = .cmd ∧ decode v = .ok i ∧
            exec i { s with pending := rest } = .next t) ∨
          (∃ addr v e, act = .memWrite addr 4 v ∧ regAt s.nw (addr - s.base) = .cmd ∧ decode v = .error e ∧
            t = ({ s with pending := rest } : State).fail .illegalCommand) ∨
          (∃ addr v, act = .memWrite addr 4 v ∧ regAt s.nw (addr - s.base) ≠ .cmd ∧
            t = writeReg (regAt s.nw (addr - s.base)) v { s with pending := rest }) ∨
          (∃ addr, act = .memRead addr 4 ∧ t = hostRead (regAt s.nw (addr - s.base)) { s with pending := rest }) ∨
          (act = .reset ∧ t = ({ s with pending := rest } : State).hostReset)) := by
  rw [step, hostStep] at h
  cases hp : s.pending with
  | nil =>
    rw [hp] at h
    cases h
    exact .inl ⟨rfl, rfl⟩
  | cons act rest =>
    rw [hp] at h
    refine .inr ⟨act, rest, rfl, ?_⟩
    cases act with
    | memWrite addr size v =>
      simp only [perform, locate_pending] at h
      obtain ⟨rfl, -, -, -, hl⟩ | ⟨-, hl⟩ | ⟨-, -, hl⟩ | ⟨-, -, -, hl⟩ :=
        locate_cases s addr size <;> rw [hl] at h
      · rcases hr : regAt s.nw (addr - s.base) with _ | _ | _ | _ | _ | _ | _ | _ | k | k | k
        case cmd =>
          simp only [hr, hostWrite] at h
          simp only [runCommand] at h
          cases hd : decode v with
          | ok i => rw [hd] at h; exact .inl ⟨addr, v, i, rfl, hr, hd, h⟩
          | error e =>
            rw [hd] at h
            cases h
            exact .inr (.inl ⟨addr, v, e, rfl, hr, hd, rfl⟩)
        all_goals
          simp only [hr, hostWrite] at h
          cases h
          exact .inr (.inr (.inl ⟨addr, v, rfl, by simp [hr], by rw [hr]⟩))
      all_goals cases h
    | memRead addr size =>
      simp only [perform, locate_pending] at h
      obtain ⟨rfl, -, -, -, hl⟩ | ⟨-, hl⟩ | ⟨-, -, hl⟩ | ⟨-, -, -, hl⟩ :=
        locate_cases s addr size <;> rw [hl] at h <;> cases h
      exact .inr (.inr (.inr (.inl ⟨addr, rfl, rfl⟩)))
    | reset =>
      cases h
      exact .inr (.inr (.inr (.inr ⟨rfl, rfl⟩)))

end Sys2Proof.Machine
end

