-- ==== Sys2Proof/Tests/Slice0.lean ====
section
/-! SUPPORT. The model's own tests. Every expected value is written out from the spec's encodings or taken from
spec/95_test_vectors.md; the section is named at each test. The theorems `witness_…` show concrete inputs that meet the
hypotheses of the statement of the same name, one for each clause, at boundary values. -/

namespace Sys2Proof.Tests

open Sys2Proof.Machine

/-! Helpers -/

/-- A state with the given first words of A and B and the given lengths, everything else as after reset. -/
def engine (aWords bWords : List Word) (alen blen nlen : BitVec 16) : State :=
  { State.reset with
    a := (List.range 16).map fun k => aWords.getD k 0
    b := (List.range 16).map fun k => bWords.getD k 0
    alen := alen
    blen := blen
    nlen := nlen }

/-- A state with given lengths. -/
def lengths (alen blen nlen : BitVec 16) : State := engine [] [] alen blen nlen

/-- A state whose register space begins at `4 * index` and whose pending moves are `moves`. -/
def waiting (index : Nat) (moves : List HostAction) : State :=
  { State.reset with baseIndex := index, pending := moves }

/-- The smallest and the largest capacity that 00_scope.md R11 admits. -/
def smallest : Capacity := ⟨32, by decide, by decide, by decide⟩
def largest : Capacity := ⟨65504, by decide, by decide, by decide⟩

/-- An engine built with capacity `c`, its registers zero but for the given lengths, with pending moves `moves`. -/
def built (c : Capacity) (alen blen nlen : BitVec 16) (moves : List HostAction) : State :=
  { State.reset with
    a := List.replicate c.nw 0
    b := List.replicate c.nw 0
    r := List.replicate c.nw 0
    capacity := c
    alen := alen
    blen := blen
    nlen := nlen
    pending := moves }

theorem built_sized (c : Capacity) (alen blen nlen : BitVec 16) (moves : List HostAction) :
    (built c alen blen nlen moves).Sized := by constructor <;> simp [built, State.nw]

/-- STATUS, RLEN and word 0 of R after a command that answers a next state. -/
def observe (r : Result) : Option (Word × Nat × Word) :=
  match r with
  | .next t => some (t.status.word, t.rlen.toNat, t.r.getD 0 0)
  | .fault _ => none
  | .refused _ => none

/-! WellFormed: its one check refuses an ill-formed term -/

theorem test_wellFormed_derive_255 : (Instr.derive 255).WellFormed := by decide
theorem test_wellFormed_refuses_derive_256 : ¬ (Instr.derive 256).WellFormed := by decide

/-! Decoding: words written bit by bit from 30_encoding.md R65 and R66, reserved field, RIDX, OP -/

theorem test_decode_gen : decode 0b00000000000000000000000000000001#32 = .ok .gen := by decide
theorem test_decode_enc : decode 0b00000000000000000000000000000010#32 = .ok .enc := by decide
theorem test_decode_dec : decode 0b00000000000000000000000000000011#32 = .ok .dec := by decide
theorem test_decode_expand : decode 0b00000000000000000000000000010000#32 = .ok .expand := by decide
theorem test_decode_derive_0 : decode 0b00000000000000000000000000010001#32 = .ok (.derive 0) := by decide
theorem test_decode_derive_165 : decode 0b00000000000000001010010100010001#32 = .ok (.derive 165) := by decide
theorem test_decode_sub : decode 0b00000000000000000000000000100000#32 = .ok .sub := by decide
theorem test_decode_unsub : decode 0b00000000000000000000000000100001#32 = .ok .unsub := by decide
theorem test_decode_perm : decode 0b00000000000000000000000000100010#32 = .ok .perm := by decide
theorem test_decode_unperm : decode 0b00000000000000000000000000100011#32 = .ok .unperm := by decide
theorem test_decode_rndf : decode 0b00000000000000000000000000110000#32 = .ok .rndf := by decide
theorem test_decode_rndi : decode 0b00000000000000000000000000110001#32 = .ok .rndi := by decide
theorem test_decode_mva : decode 0b00000000000000000000000001000000#32 = .ok .mva := by decide
theorem test_decode_mvb : decode 0b00000000000000000000000001000001#32 = .ok .mvb := by decide

/-- 30_encoding.md R69: reserved bits, RIDX outside DERIVE, the OP values between the commands. -/
theorem test_decode_illegal :
    [0x00000000, 0x00000004, 0x0000000F, 0x00000012, 0x00000024, 0x0000002F, 0x00000032, 0x0000003F, 0x00000042, 0x000000FF,
      0x00000101, 0x00008041, 0x00010001, 0x80000011].all (fun w : Word => (decode w).toOption == none) = true := by
  decide

/-! One step: the word written to CMD runs (the first command after reset) -/

theorem test_step_runs_gen_with_empty_seed : observe (step (State.reset.withFetchWord 32 0x00000001)) = some (3, 0, 0) := by
  decide
theorem test_step_illegal_word : observe (step (State.reset.withFetchWord 32 0x00000042)) = some (0xB, 0, 0) := by decide

/-! Commands: values of 95_test_vectors.md sections 2.3 to 2.8, errors of 60_exceptions.md R162 -/

/-- Section 2.4, cross-check: EXPAND of the 40 bits 14 55 93 88 00 to 32 bits. -/
theorem test_expand_value :
    observe (exec .expand (engine [0x14559388, 0x00000000] [] 40 0 32)) = some (1, 32, 0x0c533102) := by decide +kernel
theorem test_expand_nlen_over_capacity : observe (exec .expand (lengths 4 0 513)) = some (9, 0, 0) := by decide
/-- Section 2.3: GEN(10110101). -/
theorem test_gen_value : observe (exec .gen (engine [0xb5000000] [] 8 0 0)) = some (1, 32, 0x14559388) := by decide +kernel
theorem test_gen_key_over_capacity : observe (exec .gen (lengths 129 0 0)) = some (9, 0, 0) := by decide
/-- Program P4: round 3 of a key of 512 bits, so that two blocks are hashed for each of two counters. -/
theorem test_derive_two_blocks :
    observe (exec (.derive 3) (engine ([0x34CC3D52, 0xB6F3DFC3, 0xBEB5945E, 0x912F50AA, 0x776A0220, 0x320DDBB8, 0x73D922B6,
      0xDB524BDB] ++ [0xFB851D9E, 0x250A6285, 0xAAA4AE80, 0xE46A67AF, 0x92178D8D, 0x8AB843FF, 0xF99EA450, 0xBD895223])
      [] 512 0 0)) = some (1, 512, 0xf94300d3) := by
  decide +kernel
/-- Section 2.4: a key whose last byte is partial. -/
theorem test_derive_partial_byte :
    observe (exec (.derive 2) (engine [0x67ee904c, 0xcfffffff] [] 36 0 0)) = some (1, 36, 0xa126c2db) := by decide +kernel
/-- Section 2.5. -/
theorem test_sub_value :
    observe (exec .sub (engine [] [0x01234567, 0x89abcdef] 0 64 0)) = some (1, 64, 0xc56b90ad) := by decide +kernel
theorem test_sub_length_not_multiple_of_4 : observe (exec .sub (lengths 0 30 0)) = some (3, 0, 0) := by decide
theorem test_unsub_value :
    observe (exec .unsub (engine [] [0x01234567, 0x89abcdef] 0 64 0)) = some (1, 64, 0x5ef8c12d) := by decide +kernel
theorem test_unsub_over_capacity : observe (exec .unsub (lengths 0 516 0)) = some (9, 0, 0) := by decide
/-- Section 2.6. -/
theorem test_perm_value : observe (exec .perm (engine [] [0xf0000000] 0 32 0)) = some (1, 32, 0x40404040) := by
  decide +kernel
theorem test_perm_empty : observe (exec .perm (lengths 4 0 0)) = some (3, 0, 0) := by decide
theorem test_unperm_value : observe (exec .unperm (engine [] [0xf0000000] 0 32 0)) = some (1, 32, 0x88800001) := by
  decide +kernel
theorem test_unperm_length_16 : observe (exec .unperm (engine [] [0x1234ffff] 0 16 0)) = some (1, 16, 0x16a00000) := by
  decide +kernel
/-- Section 2.7. -/
theorem test_rndf_value :
    observe (exec .rndf (engine [0x0c533102] [0xaaaaaaaa] 32 32 0)) = some (1, 32, 0xef4d7dc1) := by decide +kernel
theorem test_rndf_size_mismatch : observe (exec .rndf (lengths 32 28 0)) = some (5, 0, 0) := by decide
theorem test_rndi_value :
    observe (exec .rndi (engine [0xeeeb8875] [0x2d5ac446] 32 32 0)) = some (1, 32, 0x352bb9c9) := by decide +kernel
theorem test_rndi_input_before_size : observe (exec .rndi (lengths 32 30 0)) = some (3, 0, 0) := by decide
/-- Section 1, V5 and V2: the keys 1000 and 1010 of length 4. -/
theorem test_enc_value : observe (exec .enc (engine [0x80000000] [0xf0000000] 4 4 0)) = some (1, 4, 0x70000000) := by
  decide +kernel
theorem test_enc_capacity_before_input : observe (exec .enc (lengths 600 30 0)) = some (9, 0, 0) := by decide
theorem test_dec_value : observe (exec .dec (engine [0xa0000000] [0xd0000000] 4 4 0)) = some (1, 4, 0xa0000000) := by
  decide +kernel
theorem test_dec_size_mismatch : observe (exec .dec (lengths 32 28 0)) = some (5, 0, 0) := by decide

/-- A state whose R holds the four bits 1010 after a command without error. -/
def withResult : State :=
  { State.reset with r := packWords 16 [true, false, true, false], rlen := 4, status := Status.completed }

/-- 46_transfer.md R150, R151: R goes to A, or to B, and stays in R. -/
theorem test_mva : ∃ t, exec .mva withResult = .next t ∧ t.aSeq = [true, false, true, false] ∧ t.rlen = 4 ∧ t.blen = 0 :=
  ⟨_, exec_mva _, by decide +kernel⟩
theorem test_mvb : ∃ t, exec .mvb withResult = .next t ∧ t.bSeq = [true, false, true, false] ∧ t.rlen = 4 ∧ t.alen = 0 :=
  ⟨_, exec_mvb _, by decide +kernel⟩

/-! Another capacity: 00_scope.md R11, 10_state.md R29, 20_memory.md R46, 60_exceptions.md R162 -/

/-- NW = 1: the word of B stands at 0x044, the word of R at 0x048, and SIZE is 0x4C. -/
theorem test_regAt_smallest : regAt 1 0x044 = .bWord 0 ∧ regAt 1 0x048 = .rWord 0 ∧ smallest.size = 0x4C := by decide
/-- CAPW is 1 and 2047. -/
theorem test_id_smallest : idWord smallest.nw = 0x10010444 := by decide
theorem test_id_largest : idWord largest.nw = 0x17FF0444 := by decide
/-- GEN of 8 bits just fits an engine of 32 bits; of 9 it does not. -/
theorem test_gen_smallest : (observe (exec .gen (built smallest 8 0 0 []))).map Prod.fst = some 1 := by decide +kernel
theorem test_gen_over_smallest : observe (exec .gen (built smallest 9 0 0 [])) = some (9, 0, 0) := by decide +kernel

/-! Serialisation and script notation: 95_test_vectors.md section 2.1, 30_encoding.md R73 -/

theorem test_ser_nine_bits : ser [true, false, true, true, false, true, false, true, true] = [0xb5, 0x80] := by decide
/-- `1100 XOR 1010` is `0110`. -/
theorem test_xor : xorSeq [true, true, false, false] [true, false, true, false] = [false, true, true, false] := by decide
theorem test_unser_nine_bits :
    unser [0xb5, 0x80] 9 = [true, false, true, true, false, true, false, true, true] := by decide
theorem test_be32 : be32 258 = [0, 0, 1, 2] := by decide
theorem test_lda : lda State.reset [true, false, true, true] = [.memWrite 0x040 4 0xb0000000, .memWrite 0x00C 4 4] := by
  decide +kernel
theorem test_issue_derive_2 : issue State.reset (.derive 2) = .memWrite 0x004 4 0x00000211 := by decide

/-! Witnesses: encoding and the step -/

theorem witness_DecodeInvertsEncode :
    (Instr.derive 0).WellFormed ∧ (Instr.derive 255).WellFormed ∧ Instr.mvb.WellFormed := by decide

theorem witness_EncodeInvertsDecode : decode 0x0000FF11 = .ok (.derive 255) ∧ decode 0x00000041 = .ok .mvb := by decide

theorem witness_DecodeFollowsFieldTestsAndTable :
    (0x00010011 : Word).toNat / 65536 ≠ 0 ∧ (0xFFFF0000 : Word).toNat / 65536 ≠ 0 ∧
    ((0x0000FF11 : Word).toNat / 65536 = 0 ∧ (0x0000FF11 : Word).toNat % 256 = 0x11) ∧
    ((0x00000110 : Word).toNat / 65536 = 0 ∧ (0x00000110 : Word).toNat % 256 ≠ 0x11 ∧
      (0x00000110 : Word).toNat / 256 % 256 ≠ 0) ∧
    (0x00000041 : Word).toNat = 0x41 ∧
    ((0x000000FF : Word).toNat < 256 ∧
      (0x000000FF : Word).toNat ∉ [0x01, 0x02, 0x03, 0x10, 0x11, 0x20, 0x21, 0x22, 0x23, 0x30, 0x31, 0x40, 0x41]) ∧
    decode 0x0000FF11 = .ok (.derive 255) ∧
    (⟨"DERIVE", 0x00000011, 0xFFFF00FF⟩ ∈ opcodeTable ∧
      OpcodeRow.selects ⟨"DERIVE", 0x00000011, 0xFFFF00FF⟩ 0x0000FF11 = true) := by decide +kernel

theorem witness_StepRunsDecodedCommand :
    ((waiting 0x400 [.memWrite 0x1004 4 0xFF11, .reset]).pending =
        .memWrite ((waiting 0x400 [.memWrite 0x1004 4 0xFF11, .reset]).base + 0x004) 4 0xFF11 :: [.reset] ∧
      decode 0xFF11 = .ok (.derive 255)) ∧
    0xFF11 < 2 ^ 32 ∧ decodeTableWord 32 0xFF11 = some (.derive 255) := by decide

theorem witness_IllegalWordFailsAtOnce :
    (∀ w, (waiting 0 [.memWrite 4 4 w]).pending = .memWrite ((waiting 0 [.memWrite 4 4 w]).base + 0x004) 4 w :: []) ∧
    ([0x00010001, 0x00000101, 0x00000000, 0x00000004, 0x0000000F, 0x00000012, 0x0000001F, 0x00000024, 0x0000002F,
      0x00000032, 0x0000003F, 0x00000042, 0x000000FF] : List Word).all (fun w => decide
        (w.toNat / 65536 ≠ 0 ∨ (w.toNat % 256 ≠ 0x11 ∧ w.toNat / 256 % 256 ≠ 0) ∨ w.toNat % 256 = 0x00 ∨
        (0x04 ≤ w.toNat % 256 ∧ w.toNat % 256 ≤ 0x0F) ∨ (0x12 ≤ w.toNat % 256 ∧ w.toNat % 256 ≤ 0x1F) ∨
        (0x24 ≤ w.toNat % 256 ∧ w.toNat % 256 ≤ 0x2F) ∨ (0x32 ≤ w.toNat % 256 ∧ w.toNat % 256 ≤ 0x3F) ∨
        0x42 ≤ w.toNat % 256)) = true := ⟨fun _ => rfl, by decide +kernel⟩

theorem witness_HostWriteStoresWritableBits :
    State.reset.Sized ∧ ∀ off ∈ [0x000, 0x008, 0x00C, 0x010, 0x014, 0x018, 0x040, 0x07C, 0x080, 0x0BC, 0x0C0, 0x0FC],
      off % 4 = 0 ∧ off < State.reset.size ∧ off ≠ 0x004 ∧
      (waiting 0 [.memWrite off 4 0xFFFFFFFF]).pending =
        .memWrite ((waiting 0 [.memWrite off 4 0xFFFFFFFF]).base + off) 4 0xFFFFFFFF :: [] :=
  ⟨State.sized_reset, by decide⟩
/-- The last word of A, of B and of R in the largest engine. -/
theorem witness_HostWriteStoresWritableBits_largest :
    ∀ off ∈ [0x2038, 0x4034, 0x6030], (built largest 0 0 0 [.memWrite off 4 1]).Sized ∧ off % 4 = 0 ∧
      off < (built largest 0 0 0 [.memWrite off 4 1]).size ∧ off ≠ 0x004 ∧
      (built largest 0 0 0 [.memWrite off 4 1]).pending =
        .memWrite ((built largest 0 0 0 [.memWrite off 4 1]).base + off) 4 1 :: [] :=
  fun off h => ⟨built_sized _ _ _ _ _, by revert off; decide⟩

theorem witness_HostReadReturnsRegister :
    ∀ off ∈ [0x000, 0x004, 0x008, 0x00C, 0x010, 0x014, 0x018, 0x01C, 0x03C, 0x040, 0x07C, 0x080, 0x0BC, 0x0C0, 0x0FC],
      off % 4 = 0 ∧ off < State.reset.size ∧
      (waiting 0 [.memRead off 4]).pending = .memRead ((waiting 0 [.memRead off 4]).base + off) 4 :: [] := by decide

theorem witness_AccessRightsOfTheRegisterSpace :
    (∀ off ∈ [0x000, 0x008, 0x018, 0x03C, 0x0C0, 0x0FC], off % 4 = 0 ∧
      (off = 0x000 ∨ off = 0x008 ∨ (0x018 ≤ off ∧ off < 0x040) ∨ (0x040 + 8 * State.reset.nw ≤ off ∧ off < State.reset.size)) ∧
      (waiting 0 [.memWrite off 4 1]).pending = .memWrite ((waiting 0 [.memWrite off 4 1]).base + off) 4 1 :: []) ∧
    (∀ off ∈ [0x004, 0x01C, 0x03C], off % 4 = 0 ∧ (off = 0x004 ∨ (0x01C ≤ off ∧ off < 0x040)) ∧
      (waiting 0 [.memRead off 4]).pending = .memRead ((waiting 0 [.memRead off 4]).base + off) 4 :: []) := by decide

theorem witness_ReadAfterWriteReturnsWrittenBits :
    State.reset.Sized ∧ ∀ off ∈ [0x00C, 0x014, 0x040, 0x07C, 0x080, 0x0BC],
      off % 4 = 0 ∧ ((0x00C ≤ off ∧ off ≤ 0x014) ∨ (0x040 ≤ off ∧ off < 0x040 + 8 * State.reset.nw)) ∧
      (waiting 0 [.memWrite off 4 5, .memRead off 4]).pending =
        .memWrite ((waiting 0 [.memWrite off 4 5, .memRead off 4]).base + off) 4 5 ::
          .memRead ((waiting 0 [.memWrite off 4 5, .memRead off 4]).base + off) 4 :: [] := ⟨State.sized_reset, by decide⟩

/-- Each clause: another width, an unaligned address, one word below and one word above the register space. -/
theorem witness_UndefinedAccessIsRefused :
    ((waiting 0x400 [.memWrite 0x1040 2 1]).pending = .memWrite 0x1040 2 1 :: [] ∧ 2 ≠ 4) ∧
    ((waiting 0x400 [.memRead 0x1042 4]).pending = .memRead 0x1042 4 :: [] ∧ 0x1042 % 4 ≠ 0) ∧
    ((waiting 0x400 [.memRead 0x0FFC 4]).pending = .memRead 0x0FFC 4 :: [] ∧ 0x0FFC % 4 = 0 ∧
      0x0FFC < (waiting 0x400 [.memRead 0x0FFC 4]).base) ∧
    ((waiting 0x400 [.memWrite 0x1100 4 1]).pending = .memWrite 0x1100 4 1 :: [] ∧ 0x1100 % 4 = 0 ∧
      (waiting 0x400 [.memWrite 0x1100 4 1]).base + State.reset.size ≤ 0x1100) := by decide

theorem witness_HostResetClearsEveryRegister :
    (waiting 0 [.reset, .memRead 0 4]).pending = .reset :: [.memRead 0 4] := by decide

theorem witness_IdRegisterFields : State.reset.lmax = 512 := by decide

/-! Witnesses: invariants and whole-machine rules -/

theorem withResult_consistent : Consistent withResult where
  sized := by constructor <;> rfl
  rlen_le := by decide
  tail_zero := by decide +kernel
  err_produced := by decide
  err_empty := by decide
  fresh := by decide

theorem witness_StepKeepsRegisterInvariant : Consistent withResult ∧ ∃ t, step withResult = .next t :=
  ⟨withResult_consistent, withResult, rfl⟩

theorem witness_LegalLaunchRunsToItsEnd :
    (waiting 0x400 [.memWrite 0x1040 4 0xb5000000, .memWrite 0x100C 4 8, .memWrite 0x1004 4 1, .memRead 0x10FC 4,
      .reset]).launchLegal = true := by decide

theorem witness_CommandFrame : (∃ t, exec .mva withResult = .next t) ∧ (∃ t, exec .mvb withResult = .next t) ∧
    ∃ t, exec .gen (lengths 0 0 0) = .next t := ⟨⟨_, exec_mva _⟩, ⟨_, exec_mvb _⟩, ⟨_, rfl⟩⟩

/-- SUB on one length-4 sequence held under different bits past BLEN and with different A, R and STATUS. -/
theorem witness_CommandOutcomeIsStateless_operands :
    ∃ s s' t t', Instr.sub ≠ .mva ∧ Instr.sub ≠ .mvb ∧ exec .sub s = .next t ∧ exec .sub s' = .next t' ∧ s ≠ s' ∧
      s.capacity = s'.capacity ∧
      (readsA .sub = true → s.alen = s'.alen ∧ (s.alen.toNat ≤ s.lmax → s.aSeq = s'.aSeq)) ∧
      (readsB .sub = true → s.blen = s'.blen ∧ (s.blen.toNat ≤ s.lmax → s.bSeq = s'.bSeq)) ∧
      (readsN .sub = true → s.nlen = s'.nlen) := by
  refine ⟨engine [] [0xb0000000] 0 4 0, { engine [1] [0xb7654321] 9 4 3 with status := Status.failed .invalidInput }, _, _,
    by decide, by decide, rfl, rfl, by decide +kernel, rfl, ?_, ?_, ?_⟩
  all_goals decide +kernel

theorem witness_CommandOutcomeIsStateless :
    ∃ s s' t t', exec .mva s = .next t ∧ exec .mva s' = .next t' ∧ s ≠ s' ∧
      s.capacity = s'.capacity ∧ s.a = s'.a ∧ s.alen = s'.alen ∧ s.b = s'.b ∧
      s.blen = s'.blen ∧ s.nlen = s'.nlen ∧ s.r = s'.r ∧ s.rlen = s'.rlen :=
  ⟨withResult, { withResult with status := Status.failed .invalidInput }, _, _, exec_mva _, exec_mva _, by decide +kernel,
    rfl, rfl, rfl, rfl, rfl, rfl, rfl, rfl⟩

theorem witness_RepeatedCommandChangesNothing : ∃ t, exec .mvb withResult = .next t := ⟨_, exec_mvb _⟩

theorem witness_ErrorTableAndPriority : (Instr.derive 255).WellFormed ∧ Instr.enc.WellFormed := by decide

theorem witness_WriteResultLeavesSequenceInR : ([] : BitSeq).length ≤ State.reset.lmax ∧
    (zeros 512).length ≤ State.reset.lmax := by decide +kernel

theorem witness_SequenceViewIsMostSignificantFirst : 
    512 ≤ 32 * State.reset.a.length ∧ 511 < 512 ∧ 1 ≤ 32 * State.reset.a.length ∧ 0 < 1 := by decide

/-! Witnesses: commands -/

theorem witness_ExpandWritesExpansion :
    (lengths 513 0 0).lmax < (lengths 513 0 0).alen.toNat ∨ (lengths 513 0 0).lmax < (lengths 513 0 0).nlen.toNat := by decide
theorem witness_ExpandWritesExpansion_nlen : (lengths 0 0 513).lmax < (lengths 0 0 513).nlen.toNat := by decide
theorem witness_ExpandWritesExpansion_next :
    ((lengths 512 0 512).alen.toNat ≤ (lengths 512 0 512).lmax ∧ (lengths 512 0 512).nlen.toNat ≤ (lengths 512 0 512).lmax) ∧
    (lengths 0 0 0).alen.toNat ≤ (lengths 0 0 0).lmax ∧ (lengths 0 0 0).nlen.toNat ≤ (lengths 0 0 0).lmax := by decide

theorem witness_GenWritesKey :
    (lengths 129 0 0).lmax < 4 * (lengths 129 0 0).alen.toNat ∧ (lengths 0 0 0).alen.toNat = 0 ∧
    (1 ≤ (lengths 1 0 0).alen.toNat ∧ 4 * (lengths 1 0 0).alen.toNat ≤ (lengths 1 0 0).lmax) ∧
    1 ≤ (lengths 128 0 0).alen.toNat ∧ 4 * (lengths 128 0 0).alen.toNat ≤ (lengths 128 0 0).lmax := by decide

theorem witness_DeriveWritesSubkey :
    255 ≤ 255 ∧ 255 < 256 ∧ (lengths 513 0 0).lmax < (lengths 513 0 0).alen.toNat ∧ (lengths 512 0 0).alen.toNat ≤ (lengths 512 0 0).lmax ∧
    (lengths 0 0 0).alen.toNat ≤ (lengths 0 0 0).lmax := by decide

/-- The three clauses of SUB, UNSUB, PERM and UNPERM. -/
theorem witness_StreamOutcomes :
    (lengths 0 513 0).lmax < (lengths 0 513 0).blen.toNat ∧ (lengths 0 65535 0).lmax < (lengths 0 65535 0).blen.toNat ∧
    ((lengths 0 0 0).blen.toNat ≤ (lengths 0 0 0).lmax ∧ (lengths 0 0 0).blen.toNat = 0) ∧
    ((lengths 0 511 0).blen.toNat ≤ (lengths 0 511 0).lmax ∧ (lengths 0 511 0).blen.toNat % 4 ≠ 0) ∧
    (1 ≤ (lengths 0 4 0).blen.toNat ∧ (lengths 0 4 0).blen.toNat ≤ (lengths 0 4 0).lmax ∧ (lengths 0 4 0).blen.toNat % 4 = 0) ∧
    1 ≤ (lengths 0 512 0).blen.toNat ∧ (lengths 0 512 0).blen.toNat ≤ (lengths 0 512 0).lmax ∧ (lengths 0 512 0).blen.toNat % 4 = 0 := by
  decide

theorem witness_SubWritesSubstitution :
    1 ≤ (lengths 0 4 0).blen.toNat ∧ (lengths 0 4 0).blen.toNat ≤ (lengths 0 4 0).lmax ∧ (lengths 0 4 0).blen.toNat % 4 = 0 := by decide
theorem witness_UnsubWritesAndUndoesSub :
    1 ≤ (lengths 0 512 0).blen.toNat ∧ (lengths 0 512 0).blen.toNat ≤ (lengths 0 512 0).lmax ∧ (lengths 0 512 0).blen.toNat % 4 = 0 := by
  decide
theorem witness_PermAndUnpermWritePermutation :
    1 ≤ (lengths 0 8 0).blen.toNat ∧ (lengths 0 8 0).blen.toNat ≤ (lengths 0 8 0).lmax ∧ (lengths 0 8 0).blen.toNat % 4 = 0 := by decide

/-- The four clauses of RNDF, RNDI, ENC and DEC. -/
theorem witness_PairOutcomes :
    (lengths 513 4 0).lmax < (lengths 513 4 0).alen.toNat ∧ (lengths 4 513 0).lmax < (lengths 4 513 0).blen.toNat ∧
    ((lengths 512 510 0).alen.toNat ≤ (lengths 512 510 0).lmax ∧ (lengths 512 510 0).blen.toNat ≤ (lengths 512 510 0).lmax ∧
      (lengths 512 510 0).blen.toNat % 4 ≠ 0) ∧
    ((lengths 0 4 0).alen.toNat ≤ (lengths 0 4 0).lmax ∧ (lengths 0 4 0).blen.toNat ≤ (lengths 0 4 0).lmax ∧ (lengths 0 4 0).alen.toNat = 0) ∧
    (1 ≤ (lengths 512 4 0).alen.toNat ∧ (lengths 512 4 0).alen.toNat ≤ (lengths 512 4 0).lmax ∧ (lengths 512 4 0).alen.toNat % 4 = 0 ∧
      1 ≤ (lengths 512 4 0).blen.toNat ∧ (lengths 512 4 0).blen.toNat ≤ (lengths 512 4 0).lmax ∧ (lengths 512 4 0).blen.toNat % 4 = 0 ∧
      (lengths 512 4 0).alen ≠ (lengths 512 4 0).blen) ∧
    (1 ≤ (lengths 512 512 0).alen.toNat ∧ (lengths 512 512 0).alen.toNat ≤ (lengths 512 512 0).lmax ∧
      (lengths 512 512 0).alen.toNat % 4 = 0 ∧ (lengths 512 512 0).alen = (lengths 512 512 0).blen) := by decide

/-- The condition of the normal end and of the laws at the port, at the smallest and the largest length. -/
theorem witness_RndfWritesRound :
    1 ≤ (lengths 4 4 0).alen.toNat ∧ (lengths 4 4 0).alen.toNat ≤ (lengths 4 4 0).lmax ∧ (lengths 4 4 0).alen.toNat % 4 = 0 ∧
    (lengths 4 4 0).alen = (lengths 4 4 0).blen := by decide
theorem witness_RndiWritesAndUndoesRndf :
    1 ≤ (lengths 512 512 0).blen.toNat ∧ (lengths 512 512 0).blen.toNat ≤ (lengths 512 512 0).lmax ∧ (lengths 512 512 0).blen.toNat % 4 = 0 ∧
    (lengths 512 512 0).alen = (lengths 512 512 0).blen := by decide
theorem witness_EncWritesCiphertext :
    1 ≤ (lengths 4 4 0).alen.toNat ∧ (lengths 4 4 0).alen.toNat ≤ (lengths 4 4 0).lmax ∧ (lengths 4 4 0).alen.toNat % 4 = 0 ∧
    (lengths 4 4 0).alen = (lengths 4 4 0).blen := by decide
theorem witness_DecWritesAndUndoesEnc :
    1 ≤ (lengths 512 512 0).blen.toNat ∧ (lengths 512 512 0).blen.toNat ≤ (lengths 512 512 0).lmax ∧ (lengths 512 512 0).blen.toNat % 4 = 0 ∧
    (lengths 512 512 0).alen = (lengths 512 512 0).blen := by decide

theorem witness_ExpandWritesExpansion_gen :
    (1 ≤ (lengths 1 0 4).alen.toNat ∧ (lengths 1 0 4).nlen.toNat = 4 * (lengths 1 0 4).alen.toNat ∧
      (lengths 1 0 4).nlen.toNat ≤ (lengths 1 0 4).lmax) ∧
    1 ≤ (lengths 128 0 512).alen.toNat ∧ (lengths 128 0 512).nlen.toNat = 4 * (lengths 128 0 512).alen.toNat ∧
      (lengths 128 0 512).nlen.toNat ≤ (lengths 128 0 512).lmax := by decide

/-! Witnesses: serialisation, SHA-256 and the expander -/

theorem witness_XorOfSequences :
    [true, true, false, false].length = [true, false, true, false].length ∧ 3 < [true, true, false, false].length := by
  decide
theorem witness_SerAndUnserMostSignificantFirst : 1 < ([true, false, true, true, false, true, false, true, true].length + 7) / 8 ∧
    7 < 8 := by decide
theorem witness_SerAndUnserMostSignificantFirst_unser : 9 ≤ 8 * ([0xb5, 0x80] : List Byte).length ∧ 8 < 9 := by decide
/-- A message of 55 bytes needs no zero byte, one of 56 needs 63; words from four bytes; one block of 16 words. -/
theorem witness_ShaPaddingAndWords :
    8 * ([] : List Byte).length < 2 ^ 64 ∧ padZeros 55 = 0 ∧ padZeros 56 = 63 ∧ 62 < padZeros 56 ∧
    (([0x61, 0x62, 0x63, 0x80] : List Byte).length % 4 = 0 ∧ 0 < ([0x61, 0x62, 0x63, 0x80] : List Byte).length / 4) ∧
    ((List.replicate 16 (0 : Word)).length % 16 = 0 ∧ 0 < (List.replicate 16 (0 : Word)).length / 16 ∧ 15 < 16) := by decide
theorem witness_ShaWordOperations : (0 < 1 ∧ 1 < 32) ∧ (0 < 31 ∧ 31 < 32) := by decide
theorem witness_ShaMessageSchedule :
    (List.replicate 16 (0 : Word)).length = 16 ∧ 15 < 16 ∧ (16 ≤ 16 ∧ 16 < 64) ∧ (16 ≤ 63 ∧ 63 < 64) := by decide
/-- A block; and messages whose padding is one block and, one byte longer, two. -/
theorem witness_ShaCompression : (List.replicate 16 (0 : Word)).length = 16 ∧ 63 < 64 ∧
    ((List.replicate 55 (0 : Byte)).length < 2 ^ 61 ∧ 0 < (padMessage (List.replicate 55 0)).length / 64) ∧
    (List.replicate 56 (0 : Byte)).length < 2 ^ 61 ∧ 1 < (padMessage (List.replicate 56 0)).length / 64 := by decide +kernel
theorem witness_ExpandTakesDigestBitsInCounterOrder :
    (-1 : Int) < 0 ∧ (0 : Int) ≤ 0 ∧ (0 : Int) ≤ 257 ∧ 256 < (257 : Int).toNat ∧ 256 / 256 < 2 ^ 32 := by decide
/-- Section 2.3: the seeds 1 and 10 serialise alike. -/
theorem witness_ExpansionPrefixLaw :
    256 ≤ 257 ∧ ser [true] = ser [true, false] ∧ [true].length ≤ [true, false].length := by decide
theorem witness_DeriveIsExpandOfKeyAndIndex : (zeros 0).length % 8 = 0 ∧ (zeros 8).length % 8 = 0 := by decide

/-! Witnesses: the tables, the data path and the function level (for the configuration `hardware`) -/

theorem witness_SubstituteReplacesEveryGroup :
    ∃ _c : Config, (zeros 8).length % 4 = 0 ∧ 1 < (zeros 8).length / 4 ∧ 3 < 4 := ⟨hardware, by decide⟩
theorem witness_UnsubstituteUndoesSubstitute : ∃ _c : Config, (zeros 0).length % 4 = 0 ∧ (zeros 4).length % 4 = 0 :=
  ⟨hardware, by decide⟩
theorem witness_PermutationOfThisHardware : (1 ≤ 4 ∧ 4 % 4 = 0 ∧ 3 < 4) ∧ (1 ≤ 512 ∧ 512 % 4 = 0 ∧ 511 < 512) := by decide
theorem witness_PermuteMovesEachBitToItsPlace :
    ∃ _c : Config, 1 ≤ (zeros 4).length ∧ (zeros 4).length % 4 = 0 ∧ 3 < (zeros 4).length := ⟨hardware, by decide⟩
theorem witness_UnpermuteUndoesPermute :
    ∃ _c : Config, 1 ≤ (zeros 8).length ∧ (zeros 8).length % 4 = 0 ∧ 7 < (zeros 8).length := ⟨hardware, by decide⟩
theorem witness_RoundInverseUndoesRound :
    ∃ _c : Config, 1 ≤ (zeros 4).length ∧ (zeros 4).length % 4 = 0 ∧ (zeros 4).length = (zeros 4).length :=
  ⟨hardware, by decide⟩
theorem witness_GenAndDeriveAtFunctionLevel :
    (∃ x, x ∈ ([1, 0, 2, 1] : List Int) ∧ x ≠ 0 ∧ x ≠ 1) ∧ [true] ≠ ([] : BitSeq) ∧ ([1] : List Int) = toInts [true] ∧
    ((0 : Int) ≤ 0 ∧ (0 : Int) ≤ 255) ∧ ((0 : Int) ≤ 255 ∧ (255 : Int) ≤ 255) ∧ (-1 : Int) < 0 ∧ (255 : Int) < 256 := by
  decide
theorem witness_EncAndDecAtFunctionLevel :
    (∃ x, (x ∈ ([] : List Int) ∨ x ∈ ([-1] : List Int)) ∧ x ≠ 0 ∧ x ≠ 1) ∧
    (toInts (zeros 4) = toInts (zeros 4) ∧ (zeros 3).length % 4 ≠ 0 ∧ (zeros 0).length = 0) ∧
    (1 ≤ (zeros 4).length ∧ (zeros 4).length % 4 = 0 ∧ 1 ≤ (zeros 8).length ∧ (zeros 8).length % 4 = 0 ∧
      (zeros 4).length ≠ (zeros 8).length) ∧
    (1 ≤ (zeros 4).length ∧ (zeros 4).length % 4 = 0 ∧ (zeros 4).length = (zeros 4).length) :=
  ⟨⟨-1, by decide⟩, by decide, by decide, by decide⟩
theorem witness_DecryptionInvertsEncryption :
    ∃ _c : Config, 1 ≤ (zeros 4).length ∧ (zeros 4).length % 4 = 0 ∧ (zeros 4).length = (zeros 4).length :=
  ⟨hardware, by decide⟩
theorem witness_PortAgreesWithFunctionLevel :
    (lengths 512 512 0).alen.toNat ≤ (lengths 512 512 0).lmax ∧ (lengths 512 512 0).blen.toNat ≤ (lengths 512 512 0).lmax ∧
    4 * (lengths 128 0 0).alen.toNat ≤ (lengths 128 0 0).lmax := by decide
/-- A list of another length, one with an entry above 15, one with a repeated entry; an identity-like family that leaves
0..L-1 at L = 4, and one that takes two positions to one place at the largest length; a command. -/
theorem witness_ConfigurationErrorOnlyAtConstruction :
    ([0, 1] : List Nat).length ≠ 16 ∧ (∃ x, x ∈ (List.range 15 ++ [16]) ∧ 16 ≤ x) ∧ ¬ (List.range 15 ++ [14]).Nodup ∧
    (4 ≤ 4 ∧ 4 % 4 = 0 ∧ 4 ≤ smallest.lmax ∧ ∃ i, i < 4 ∧ 4 ≤ (fun _ i => i + 1 : Nat → Nat → Nat) 4 i) ∧
    (4 ≤ 65504 ∧ 65504 % 4 = 0 ∧ 65504 ≤ largest.lmax ∧
      ∃ i j, i < j ∧ j < 65504 ∧ (fun _ _ => 0 : Nat → Nat → Nat) 65504 i = (fun _ _ => 0 : Nat → Nat → Nat) 65504 j) ∧
    ∃ t, exec .mva State.reset = .next t :=
  ⟨by decide, ⟨16, by decide, by decide⟩, by decide, ⟨by decide, by decide, by decide, 3, by decide, by decide⟩,
    ⟨by decide, by decide, by decide, 0, 1, by decide, by decide, rfl⟩, _, exec_mva _⟩

end Sys2Proof.Tests
end

section
/-! SUPPORT. The two ends of a command in the terms of the statements, and the refinement between the port and the function
level (00_scope.md R4): both run the same checks, so both are one checked value. -/

namespace Sys2Proof.Machine

/-! The ends of a command -/

theorem State.sameOperands_writeResult (s : State) (v : BitSeq) : SameOperands s (s.writeResult v) :=
  ⟨rfl, rfl, rfl, rfl, rfl⟩
theorem State.samePlatform_writeResult (s : State) (v : BitSeq) : SamePlatform s (s.writeResult v) := ⟨rfl, rfl, rfl, rfl⟩
theorem State.sameOperands_fail (s : State) (k : ErrorKind) : SameOperands s (s.fail k) := ⟨rfl, rfl, rfl, rfl, rfl⟩
theorem State.samePlatform_fail (s : State) (k : ErrorKind) : SamePlatform s (s.fail k) := ⟨rfl, rfl, rfl, rfl⟩

/-- LMAX fits the 16 bits of RLEN (00_scope.md R11), so RLEN holds the length of every result that fits R. -/
theorem State.toNat_writeResult_rlen {s : State} {v : BitSeq} (h : v.length ≤ s.lmax) :
    (s.writeResult v).rlen.toNat = v.length := by
  have := s.lmax_le
  rw [State.writeResult_rlen, BitVec.toNat_ofNat, Nat.mod_eq_of_lt (by omega)]

theorem State.rSeq_writeResult {s : State} {v : BitSeq} (h : v.length ≤ s.lmax) : (s.writeResult v).rSeq = v := by
  rw [State.rSeq, toNat_writeResult_rlen h, State.writeResult_r, seqOf_packWords _ _ (by rwa [s.words])]

theorem completed_writeResult {s : State} {v : BitSeq} (h : v.length ≤ s.lmax) : Completed s v (s.writeResult v) where
  size := by simp
  rlen := State.toNat_writeResult_rlen h
  rseq := State.rSeq_writeResult h
  tail_zero i hv hi := by
    rw [State.writeResult_r, bitOf_packWords _ _ _ (by rwa [s.words]), bitOrZero_of_length_le _ _ hv]
  done := rfl
  err := rfl
  operands := s.sameOperands_writeResult v
  platform := s.samePlatform_writeResult v

theorem failed_fail (s : State) (k : ErrorKind) : Failed s k.code (s.fail k) where
  size := by simp
  rlen := rfl
  r i _ := by simp
  done := rfl
  err := rfl
  operands := s.sameOperands_fail k
  platform := s.samePlatform_fail k

/-! The function level on bits -/

/-- A value guarded by a check: the function level's answer where the port's `finish` runs the same check. -/
def checkedValue (check : Option ErrorKind) (v : BitSeq) : FuncResult :=
  match check with
  | some k => .error k
  | none => .ok v

/-- A sequence of bits passes `check_bits` (40_bitvector_and_hash.md R86). -/
@[simp] theorem checkBits_toInts (v : BitSeq) : checkBits (toInts v) = .ok v := by
  induction v with
  | nil => rfl
  | cons b v ih =>
    rw [toInts] at ih
    cases b <;> simp [toInts, checkBits, ih]

/-- On a seed whose key fits, the function level's GEN is the port's checks and value. -/
theorem funcGen_toInts {lmax : Nat} {seed : BitSeq} (h : 4 * seed.length ≤ lmax) :
    funcGen (toInts seed) = checkedValue (genCheck lmax seed.length) (genKey seed) := by
  rw [funcGen, checkBits_toInts, genCheck_eq, if_neg (by omega)]
  by_cases h0 : seed.length = 0 <;> simp only [h0, if_true, if_false, checkedValue]

/-- On operands that fit, the function level's checks of ENC and DEC are the port's, in the same order. -/
theorem funcPair_toInts (f : BitSeq → BitSeq → BitSeq) {lmax : Nat} {key data : BitSeq} (hk : key.length ≤ lmax)
    (hd : data.length ≤ lmax) :
    funcPair f (toInts key) (toInts data) = checkedValue (pairCheck lmax key.length data.length) (f key data) := by
  have hfit : (overCapacity lmax key.length || overCapacity lmax data.length) = false := by
    simp [overCapacity, hk, hd]
  simp only [funcPair, checkBits_toInts, pairCheck, hfit, Bool.false_eq_true, if_false]
  by_cases hvalid : (!validLen key.length || !validLen data.length) = true
  · rw [if_pos hvalid, if_pos hvalid, checkedValue]
  · rw [if_neg hvalid, if_neg hvalid]
    by_cases hsize : key.length ≠ data.length
    · rw [if_pos hsize, if_pos hsize, checkedValue]
    · rw [if_neg hsize, if_neg hsize, checkedValue]

/-! The refinement -/

/-- The port's answer `r` from `s` leaves the function-level result: its value in R, or its error kind in STATUS.ERR. -/
def Refines (s : State) (r : Result) (result : FuncResult) : Prop :=
  ∃ t, r = .next t ∧
    ((∃ v, result = .ok v ∧ Completed s v t) ∨ (∃ k, result = .error k ∧ Failed s k.code t))

/-- A command leaves its checked value, when every value that passes its checks fits R. -/
theorem finish_refines {check : Option ErrorKind} {value : State → BitSeq} {s : State}
    (hfit : check = none → (value s).length ≤ s.lmax) :
    Refines s (finish check value s) (checkedValue check (value s)) := by
  obtain ⟨k, rfl, he⟩ | ⟨rfl, he⟩ := finish_cases check value s
  · exact ⟨_, he, .inr ⟨k, rfl, failed_fail s k⟩⟩
  · exact ⟨_, he, .inl ⟨_, rfl, completed_writeResult (hfit rfl)⟩⟩

/-- A command on the pair A, B whose function lengthens no data leaves the function level's result. -/
theorem pairCommand_refines {f : BitSeq → BitSeq → BitSeq} {s : State} (hf : ∀ u v, (f u v).length ≤ v.length)
    (ha : s.alen.toNat ≤ s.lmax) (hb : s.blen.toNat ≤ s.lmax) :
    Refines s (pairCommand f s) (funcPair f (toInts s.aSeq) (toInts s.bSeq)) := by
  rw [funcPair_toInts f (lmax := s.lmax) (by simpa using ha) (by simpa using hb), length_aSeq, length_bSeq]
  exact finish_refines (value := fun s => f s.aSeq s.bSeq) fun _ => (hf _ _).trans (by simpa using hb)

theorem exec_enc_refines {s : State} (ha : s.alen.toNat ≤ s.lmax) (hb : s.blen.toNat ≤ s.lmax) :
    Refines s (exec .enc s) (funcEnc hardware (toInts s.aSeq) (toInts s.bSeq)) :=
  pairCommand_refines (length_encrypt_le hardware) ha hb

theorem exec_dec_refines {s : State} (ha : s.alen.toNat ≤ s.lmax) (hb : s.blen.toNat ≤ s.lmax) :
    Refines s (exec .dec s) (funcDec hardware (toInts s.aSeq) (toInts s.bSeq)) :=
  pairCommand_refines (length_decrypt_le hardware) ha hb

theorem exec_gen_refines {s : State} (h : 4 * s.alen.toNat ≤ s.lmax) :
    Refines s (exec .gen s) (funcGen (toInts s.aSeq)) := by
  rw [exec_gen, funcGen_toInts (lmax := s.lmax) (by simpa using h), length_aSeq]
  exact finish_refines (value := fun s => genKey s.aSeq) fun _ => by simpa using h

/-- Settles O59: each of the three commands runs the function level's checks on the same bits, and its value fits R. -/
theorem portAgreesWithFunctionLevel : Obligations.PortAgreesWithFunctionLevel := by
  unfold Obligations.PortAgreesWithFunctionLevel
  rintro s ha hb p (rfl | rfl | ⟨rfl, hkey⟩)
  · exact exec_enc_refines ha hb
  · exact exec_dec_refines ha hb
  · exact exec_gen_refines hkey

end Sys2Proof.Machine
end

section
/-! SUPPORT. The register invariant of 10_state.md: which ends of a move establish it, so that reset meets it and every
step keeps it. -/

namespace Sys2Proof.Machine

/-- The invariant speaks of R, RLEN, STATUS, the capacity and the number of words of the wide registers alone. -/
theorem Consistent.of_same_result {s t : State} (h : Consistent s) (hsized : t.Sized)
    (hcapacity : t.capacity = s.capacity) (hr : t.r = s.r) (hrlen : t.rlen = s.rlen) (hstatus : t.status = s.status) :
    Consistent t where
  sized := hsized
  rlen_le := by rw [State.lmax, hcapacity, hrlen]; exact h.rlen_le
  tail_zero := by rw [State.lmax, hcapacity, hr, hrlen]; exact h.tail_zero
  err_produced := by rw [hstatus]; exact h.err_produced
  err_empty := by rw [hstatus, hrlen]; exact h.err_empty
  fresh := by rw [hstatus, hrlen]; exact h.fresh

/-- A command that completed: the words of R and its length alone matter. -/
theorem consistent_of_completed {t : State} (hsized : t.Sized) (hstatus : t.status = Status.completed)
    (hrlen : t.rlen.toNat ≤ t.lmax) (htail : ∀ i, t.rlen.toNat ≤ i → i < t.lmax → bitOf t.r i = false) :
    Consistent t where
  sized := hsized
  rlen_le := hrlen
  tail_zero := htail
  err_produced := by simp [hstatus]
  err_empty := by simp [hstatus]
  fresh := by simp [hstatus]

/-- An empty R, as `Fail` and the reset leave it: STATUS alone matters. -/
theorem consistent_of_empty {t : State} (hsized : t.Sized) (hr : t.r = List.replicate t.nw 0) (hrlen : t.rlen = 0)
    (hproduced : t.status.err = 0 ∨ t.status.err = 1 ∨ t.status.err = 2 ∨ t.status.err = 4 ∨ t.status.err = 5)
    (hdone : t.status.err ≠ 0 → t.status.done = true) : Consistent t where
  sized := hsized
  rlen_le := by simp [hrlen]
  tail_zero i _ _ := by rw [hr, bitOf_replicate_zero]
  err_produced := hproduced
  err_empty herr := ⟨hrlen, hdone herr⟩
  fresh hfresh := ⟨hrlen, by_contra fun herr => by simp [hdone herr] at hfresh⟩

/-! Every move of the host keeps the invariant -/

section Moves
variable {s : State} (h : Consistent s)
include h

theorem Consistent.setPending (moves : List HostAction) : Consistent { s with pending := moves } :=
  h.of_same_result ⟨h.sized.a, h.sized.b, h.sized.r⟩ rfl rfl rfl rfl

theorem Consistent.writeReg (reg : Reg) (v : Word) : Consistent (Machine.writeReg reg v s) :=
  h.of_same_result (h.sized.writeReg reg v) (writeReg_capacity reg v s) (writeReg_r reg v s) (writeReg_rlen reg v s)
    (writeReg_status reg v s)

theorem Consistent.hostRead (reg : Reg) : Consistent (Machine.hostRead reg s) :=
  h.of_same_result (h.sized.hostRead reg) (hostRead_capacity reg s) (hostRead_r reg s) (hostRead_rlen reg s)
    (hostRead_status reg s)

theorem Consistent.moveToA : Consistent s.moveToA :=
  consistent_of_completed h.sized.moveToA s.moveToA_status h.rlen_le h.tail_zero

theorem Consistent.moveToB : Consistent s.moveToB :=
  consistent_of_completed h.sized.moveToB s.moveToB_status h.rlen_le h.tail_zero

theorem Consistent.writeResult {v : BitSeq} (hv : v.length ≤ s.lmax) : Consistent (s.writeResult v) :=
  have hend := completed_writeResult hv
  consistent_of_completed (h.sized.writeResult v) (s.writeResult_status v) (by rwa [hend.rlen])
    (by rw [hend.rlen]; exact hend.tail_zero)

/-- No command fails with ConfigurationError (60_exceptions.md R167), whose code the invariant excludes. -/
theorem Consistent.fail {k : ErrorKind} (hk : k ≠ .configurationError) : Consistent (s.fail k) :=
  consistent_of_empty (h.sized.fail k) (s.fail_r k) (s.fail_rlen k) (by cases k <;> simp at hk ⊢) fun _ => rfl

/-- Every next state of a command. -/
theorem Consistent.exec {i : Instr} {t : State} (he : Machine.exec i s = .next t) : Consistent t := by
  obtain ⟨k, hk, rfl⟩ | ⟨v, hv, rfl⟩ | ⟨-, rfl⟩ | ⟨-, rfl⟩ := exec_cases he
  · exact h.fail (by rcases hk with rfl | rfl | rfl <;> simp)
  · exact h.writeResult hv
  · exact h.moveToA
  · exact h.moveToB

end Moves

theorem State.consistent_hostReset (s : State) : Consistent s.hostReset :=
  consistent_of_empty s.sized_hostReset s.hostReset_r s.hostReset_rlen (.inl rfl) fun herr => absurd rfl herr

/-- Settles O16: the first pending move is a command, an illegal word, a register write, a register read or the reset, and
each of them keeps the invariant. -/
theorem stepKeepsRegisterInvariant : Obligations.StepKeepsRegisterInvariant := by
  unfold Obligations.StepKeepsRegisterInvariant
  intro s t h hstep
  obtain ⟨-, rfl⟩ | ⟨_, rest, -, hact⟩ := step_cases hstep
  · exact h
  · have hs := h.setPending rest
    obtain ⟨_, _, _, -, -, -, he⟩ | ⟨_, _, _, -, -, -, rfl⟩ | ⟨_, _, -, -, rfl⟩ | ⟨_, -, rfl⟩ | ⟨-, rfl⟩ := hact
    · exact hs.exec he
    · exact hs.fail (by simp)
    · exact hs.writeReg _ _
    · exact hs.hostRead _
    · exact State.consistent_hostReset _

/-- Settles O17: the reset leaves R empty and ERR 0. -/
theorem resetMeetsRegisterInvariant : Obligations.ResetMeetsRegisterInvariant :=
  consistent_of_empty State.sized_reset rfl rfl (.inl rfl) fun herr => absurd rfl herr

end Sys2Proof.Machine
end

section
/-! SUPPORT. What a command leaves unchanged and what its outcome depends on (10_state.md R34, R36). -/

namespace Sys2Proof.Machine

/-! The frame of a command -/

/-- A command other than the transfers ends in `Fail` or `WriteResult`. -/
theorem exec_cases_of_not_move {i : Instr} {s t : State} (ha : i ≠ .mva) (hb : i ≠ .mvb) (h : exec i s = .next t) :
    (∃ k, t = s.fail k) ∨ ∃ v, t = s.writeResult v := by
  obtain ⟨k, -, ht⟩ | ⟨v, -, ht⟩ | ⟨hi, -⟩ | ⟨hi, -⟩ := exec_cases h
  · exact .inl ⟨k, ht⟩
  · exact .inr ⟨v, ht⟩
  · exact absurd hi ha
  · exact absurd hi hb

theorem sameOperands_of_exec {i : Instr} {s t : State} (ha : i ≠ .mva) (hb : i ≠ .mvb) (h : exec i s = .next t) :
    SameOperands s t := by
  obtain ⟨k, rfl⟩ | ⟨v, rfl⟩ := exec_cases_of_not_move ha hb h
  · exact s.sameOperands_fail k
  · exact s.sameOperands_writeResult v

theorem samePlatform_of_exec {i : Instr} {s t : State} (h : exec i s = .next t) : SamePlatform s t := by
  obtain ⟨k, -, rfl⟩ | ⟨v, -, rfl⟩ | ⟨-, rfl⟩ | ⟨-, rfl⟩ := exec_cases h <;> exact ⟨rfl, rfl, rfl, rfl⟩

theorem done_of_exec {i : Instr} {s t : State} (h : exec i s = .next t) : t.status.done = true := by
  obtain ⟨k, -, rfl⟩ | ⟨v, -, rfl⟩ | ⟨-, rfl⟩ | ⟨-, rfl⟩ := exec_cases h <;> rfl

theorem eq_moveToA_of_exec {s t : State} (h : exec .mva s = .next t) : t = s.moveToA := by
  rw [exec_mva] at h
  cases h
  rfl

theorem eq_moveToB_of_exec {s t : State} (h : exec .mvb s = .next t) : t = s.moveToB := by
  rw [exec_mvb] at h
  cases h
  rfl

/-- Settles O19: MVA writes A alone, MVB writes B alone, and every other command ends in `Fail` or `WriteResult`, which
leave the operands as they are. -/
theorem commandFrame : Obligations.CommandFrame := by
  unfold Obligations.CommandFrame
  intro i s t h
  have hdone := done_of_exec h
  have hplatform := samePlatform_of_exec h
  by_cases ha : i = .mva
  · subst ha
    obtain rfl := eq_moveToA_of_exec h
    exact ⟨fun hne => absurd rfl hne, fun _ => ⟨rfl, rfl⟩, rfl, fun _ => ⟨rfl, rfl⟩, hdone, hplatform⟩
  by_cases hb : i = .mvb
  · subst hb
    obtain rfl := eq_moveToB_of_exec h
    exact ⟨fun _ => ⟨rfl, rfl⟩, fun hne => absurd rfl hne, rfl, fun _ => ⟨rfl, rfl⟩, hdone, hplatform⟩
  have hops := sameOperands_of_exec ha hb h
  exact ⟨fun _ => ⟨hops.a, hops.alen⟩, fun _ => ⟨hops.b, hops.blen⟩, hops.nlen, fun hmove => absurd hmove (by simp [ha, hb]),
    hdone, hplatform⟩

/-! The outcome of a command -/

/-- R, RLEN and STATUS are the same in two states. -/
structure SameResult (t t' : State) : Prop where
  r : t.r = t'.r
  rlen : t.rlen = t'.rlen
  status : t.status = t'.status

section Outcome
variable {s s' t t' : State} (hcapacity : s.capacity = s'.capacity)
include hcapacity

theorem sameResult_fail (k : ErrorKind) : SameResult (s.fail k) (s'.fail k) :=
  ⟨by simp [State.nw, hcapacity], rfl, rfl⟩

theorem sameResult_writeResult (v : BitSeq) : SameResult (s.writeResult v) (s'.writeResult v) :=
  ⟨by simp [State.nw, hcapacity], rfl, rfl⟩

/-- The result of `finish` depends on its check and, where that passes, on its value. -/
theorem sameResult_of_finish {check check' : Option ErrorKind} {value : State → BitSeq} (hcheck : check = check')
    (hvalue : check = none → value s = value s') (h : finish check value s = .next t)
    (h' : finish check' value s' = .next t') : SameResult t t' := by
  subst hcheck
  cases check with
  | some k =>
    cases h
    cases h'
    exact sameResult_fail hcapacity k
  | none =>
    cases h
    cases h'
    rw [← hvalue rfl]
    exact sameResult_writeResult hcapacity _

theorem sameResult_of_streamCommand {f : BitSeq → BitSeq}
    (hb : s.blen = s'.blen ∧ (s.blen.toNat ≤ s.lmax → s.bSeq = s'.bSeq))
    (h : streamCommand f s = .next t) (h' : streamCommand f s' = .next t') : SameResult t t' := by
  obtain ⟨hlen, hseq⟩ := hb
  refine sameResult_of_finish hcapacity (by rw [State.lmax, hcapacity, hlen, State.lmax]) (fun hc => ?_) h h'
  rw [hseq (streamCheck_eq_none hc).1]

theorem sameResult_of_pairCommand {f : BitSeq → BitSeq → BitSeq}
    (ha : s.alen = s'.alen ∧ (s.alen.toNat ≤ s.lmax → s.aSeq = s'.aSeq))
    (hb : s.blen = s'.blen ∧ (s.blen.toNat ≤ s.lmax → s.bSeq = s'.bSeq))
    (h : pairCommand f s = .next t) (h' : pairCommand f s' = .next t') : SameResult t t' := by
  obtain ⟨halen, haseq⟩ := ha
  obtain ⟨hblen, hbseq⟩ := hb
  refine sameResult_of_finish hcapacity (by rw [State.lmax, hcapacity, halen, hblen, State.lmax]) (fun hc => ?_) h h'
  obtain ⟨hafit, hbfit, -⟩ := pairCheck_eq_none hc
  rw [haseq hafit, hbseq hbfit]

end Outcome

/-! What a passed check of EXPAND, GEN or DERIVE says of the lengths the command reads. -/

theorem expandCheck_eq_none {l m n : Nat} (h : expandCheck l m n = none) : m ≤ l ∧ n ≤ l := by
  rw [expandCheck_eq] at h
  split at h
  · contradiction
  · omega

theorem genCheck_eq_none {l m : Nat} (h : genCheck l m = none) : 4 * m ≤ l ∧ m ≠ 0 := by
  rw [genCheck_eq] at h
  split at h
  · contradiction
  · split at h
    · contradiction
    · omega

theorem deriveCheck_eq_none {l m : Nat} (h : deriveCheck l m = none) : m ≤ l := by
  rw [deriveCheck_eq] at h
  split at h
  · contradiction
  · omega

/-- A round index with no encoding has no answer (41_keygen_and_subkey.md R108). -/
theorem ridx_le_of_exec {ridx : Nat} {s t : State} (h : exec (.derive ridx) s = .next t) : ridx ≤ 255 := by
  by_contra hridx
  rw [exec_derive_undefined hridx] at h
  cases h

/-- The lengths that the command `i` reads, and the bits below those that a register can hold, are the same in two
states. -/
structure SameReads (i : Instr) (s s' : State) : Prop where
  a : readsA i = true → s.alen = s'.alen ∧ (s.alen.toNat ≤ s.lmax → s.aSeq = s'.aSeq)
  b : readsB i = true → s.blen = s'.blen ∧ (s.blen.toNat ≤ s.lmax → s.bSeq = s'.bSeq)
  n : readsN i = true → s.nlen = s'.nlen

/-- The result of a command other than the transfers depends on what it reads alone. -/
theorem sameResult_of_exec {i : Instr} {s s' t t' : State} (hmva : i ≠ .mva) (hmvb : i ≠ .mvb)
    (h : exec i s = .next t) (h' : exec i s' = .next t') (hcapacity : s.capacity = s'.capacity)
    (hreads : SameReads i s s') : SameResult t t' := by
  have hlmax : s.lmax = s'.lmax := congrArg Capacity.lmax hcapacity
  obtain ⟨ha, hb, hn⟩ := hreads
  cases i with
  | expand =>
    obtain ⟨hlen, hseq⟩ := ha rfl
    rw [exec_expand] at h h'
    refine sameResult_of_finish hcapacity (by rw [hlmax, hlen, hn rfl]) (fun hc => ?_) h h'
    rw [hseq (expandCheck_eq_none hc).1, hn rfl]
  | gen =>
    obtain ⟨hlen, hseq⟩ := ha rfl
    rw [exec_gen] at h h'
    refine sameResult_of_finish hcapacity (by rw [hlmax, hlen]) (fun hc => ?_) h h'
    have := (genCheck_eq_none hc).1
    rw [hseq (by omega)]
  | derive ridx =>
    obtain ⟨hlen, hseq⟩ := ha rfl
    have hridx := ridx_le_of_exec h
    rw [exec_derive hridx] at h h'
    refine sameResult_of_finish hcapacity (by rw [hlmax, hlen]) (fun hc => ?_) h h'
    rw [hseq (deriveCheck_eq_none hc)]
  | sub => exact sameResult_of_streamCommand (f := substitute hardware) hcapacity (hb rfl) h h'
  | unsub => exact sameResult_of_streamCommand (f := unsubstitute hardware) hcapacity (hb rfl) h h'
  | perm => exact sameResult_of_streamCommand (f := permute hardware) hcapacity (hb rfl) h h'
  | unperm => exact sameResult_of_streamCommand (f := unpermute hardware) hcapacity (hb rfl) h h'
  | rndf => exact sameResult_of_pairCommand (f := fun u v => roundForward hardware v u) hcapacity (ha rfl) (hb rfl) h h'
  | rndi => exact sameResult_of_pairCommand (f := fun u v => roundInverse hardware v u) hcapacity (ha rfl) (hb rfl) h h'
  | enc => exact sameResult_of_pairCommand (f := encrypt hardware) hcapacity (ha rfl) (hb rfl) h h'
  | dec => exact sameResult_of_pairCommand (f := decrypt hardware) hcapacity (ha rfl) (hb rfl) h h'
  | mva => exact absurd rfl hmva
  | mvb => exact absurd rfl hmvb

/-- Equal operand registers are read alike by every command. -/
theorem sameReads_of_sameOperands {s s' : State} (h : SameOperands s s') (i : Instr) : SameReads i s s' where
  a _ := ⟨h.alen.symm, fun _ => by rw [State.aSeq, State.aSeq, h.a, h.alen]⟩
  b _ := ⟨h.blen.symm, fun _ => by rw [State.bSeq, State.bSeq, h.b, h.blen]⟩
  n _ := h.nlen.symm

/-- Commands keep equal operand registers equal: the transfers copy an equal R, and every other command writes none. -/
theorem sameOperands_exec_exec {i : Instr} {s s' t t' : State} (h : exec i s = .next t) (h' : exec i s' = .next t')
    (hops : SameOperands s s') (hr : s.r = s'.r) (hrlen : s.rlen = s'.rlen) : SameOperands t t' := by
  by_cases ha : i = .mva
  · subst ha
    obtain rfl := eq_moveToA_of_exec h
    obtain rfl := eq_moveToA_of_exec h'
    exact ⟨hr.symm, hrlen.symm, hops.b, hops.blen, hops.nlen⟩
  by_cases hb : i = .mvb
  · subst hb
    obtain rfl := eq_moveToB_of_exec h
    obtain rfl := eq_moveToB_of_exec h'
    exact ⟨hops.a, hops.alen, hr.symm, hrlen.symm, hops.nlen⟩
  have hs := sameOperands_of_exec ha hb h
  have hs' := sameOperands_of_exec ha hb h'
  exact ⟨by rw [hs'.a, hops.a, hs.a], by rw [hs'.alen, hops.alen, hs.alen], by rw [hs'.b, hops.b, hs.b],
    by rw [hs'.blen, hops.blen, hs.blen], by rw [hs'.nlen, hops.nlen, hs.nlen]⟩

/-- From equal operands and an equal R the results are equal: the transfers leave R as it is and set STATUS alike. -/
theorem sameResult_exec_exec {i : Instr} {s s' t t' : State} (h : exec i s = .next t) (h' : exec i s' = .next t')
    (hcapacity : s.capacity = s'.capacity) (hops : SameOperands s s') (hr : s.r = s'.r) (hrlen : s.rlen = s'.rlen) :
    SameResult t t' := by
  by_cases ha : i = .mva
  · subst ha
    obtain rfl := eq_moveToA_of_exec h
    obtain rfl := eq_moveToA_of_exec h'
    exact ⟨hr, hrlen, rfl⟩
  by_cases hb : i = .mvb
  · subst hb
    obtain rfl := eq_moveToB_of_exec h
    obtain rfl := eq_moveToB_of_exec h'
    exact ⟨hr, hrlen, rfl⟩
  exact sameResult_of_exec ha hb h h' hcapacity (sameReads_of_sameOperands hops i)

/-- Settles O20: a passed check bounds every length the command reads, so its value reads no bit past a length. -/
theorem commandOutcomeIsStateless : Obligations.CommandOutcomeIsStateless := by
  unfold Obligations.CommandOutcomeIsStateless
  constructor
  · intro i s s' t t' h h' hcapacity ha halen hb hblen hnlen hr hrlen
    have hops : SameOperands s s' := ⟨ha.symm, halen.symm, hb.symm, hblen.symm, hnlen.symm⟩
    obtain ⟨hta, htalen, htb, htblen, htnlen⟩ := sameOperands_exec_exec h h' hops hr hrlen
    obtain ⟨htr, htrlen, hstatus⟩ := sameResult_exec_exec h h' hcapacity hops hr hrlen
    exact ⟨hta.symm, htalen.symm, htb.symm, htblen.symm, htnlen.symm, htr, htrlen, hstatus⟩
  · intro i s s' t t' hmva hmvb h h' hcapacity ha hb hn
    obtain ⟨htr, htrlen, hstatus⟩ := sameResult_of_exec hmva hmvb h h' hcapacity ⟨ha, hb, hn⟩
    exact ⟨htr, htrlen, hstatus⟩

end Sys2Proof.Machine
end

section
/-! SUPPORT. The registers the engine computes, their values after reset, and the sequence view of a wide register
(10_state.md R28 to R30, R37, R38). -/

namespace Sys2Proof.Machine

/-- Settles O23: the end of `WriteResult` with everything it leaves unchanged. -/
theorem writeResultLeavesSequenceInR : Obligations.WriteResultLeavesSequenceInR := by
  unfold Obligations.WriteResultLeavesSequenceInR
  exact fun s v hv => completed_writeResult hv

/-- Settles O25: the sequence view takes its elements from `bitOf`, which is that bit of that word. -/
theorem sequenceViewIsMostSignificantFirst : Obligations.SequenceViewIsMostSignificantFirst := by
  unfold Obligations.SequenceViewIsMostSignificantFirst
  exact fun x n i _ hi => ⟨length_seqOf x n, getElem?_seqOf x n i hi⟩

/-! ID -/

/-- CAPW has room for NW, since LMAX is at most 65504 (00_scope.md R11). -/
theorem State.nw_lt (s : State) : s.nw < 2 ^ 12 := by
  have := s.words
  have := s.lmax_le
  omega

/-- Appending on the right is shifting by the appended width and adding. -/
theorem toNat_append_eq_add {m n : Nat} (x : BitVec m) (y : BitVec n) :
    (x ++ y).toNat = x.toNat * 2 ^ n + y.toNat := by
  rw [BitVec.toNat_append, ← Nat.shiftLeft_add_eq_or_of_lt y.isLt, Nat.shiftLeft_eq]

/-- ID as a number: the fixed fields, and NW from bit 16 on. -/
theorem toNat_idWord {nw : Nat} (h : nw < 2 ^ 12) : (idWord nw).toNat = 0x10000444 + 0x10000 * nw := by
  rw [idWord]
  iterate 5 rw [toNat_append_eq_add]
  simp only [BitVec.toNat_ofNat, Nat.mod_eq_of_lt h, Config.version, Config.keyMult, Config.rounds, Config.groupSize]
  omega

/-- A field of ID as a number. -/
theorem toNat_extractLsb'_id (s : State) (start len : Nat) :
    ((readReg .id s).extractLsb' start len).toNat = (0x10000444 + 0x10000 * s.nw) / 2 ^ start % 2 ^ len := by
  rw [readReg, BitVec.extractLsb'_toNat, toNat_idWord s.nw_lt, Nat.shiftRight_eq_div_pow]

theorem extractLsb'_id_eq (s : State) {start len v : Nat}
    (h : (0x10000444 + 0x10000 * s.nw) / 2 ^ start % 2 ^ len = v % 2 ^ len) :
    (readReg .id s).extractLsb' start len = BitVec.ofNat len v :=
  BitVec.eq_of_toNat_eq (by rw [toNat_extractLsb'_id, h, BitVec.toNat_ofNat])

/-- ID of every engine with LMAX = 512. -/
theorem readReg_id_of_lmax {s : State} (h : s.lmax = 512) : readReg .id s = 0x10100444 := by
  have hnw : s.nw = 16 := by
    have := s.words
    omega
  rw [readReg, hnw]
  rfl

/-- Settles O14: the fields are the digits of the number ID is, in which NW has 12 bits. -/
theorem idRegisterFields : Obligations.IdRegisterFields := by
  unfold Obligations.IdRegisterFields
  intro s
  have hnw := s.nw_lt
  have hcapw : ((readReg .id s).extractLsb' 16 12).toNat = s.lmax / 32 := by
    have := s.words
    rw [toNat_extractLsb'_id]
    omega
  exact ⟨extractLsb'_id_eq s (v := 4) (by omega), extractLsb'_id_eq s (v := 4) (by omega),
    extractLsb'_id_eq s (v := 4) (by omega), extractLsb'_id_eq s (v := 0) (by omega), hcapw,
    extractLsb'_id_eq s (v := 1) (by omega), readReg_id_of_lmax⟩

/-! STATUS -/

theorem Status.getLsbD_word_done (st : Status) : st.word.getLsbD 0 = st.done := by
  rw [Status.word, BitVec.getLsbD_append]
  simp

theorem Status.extractLsb'_word_err (st : Status) : st.word.extractLsb' 1 3 = st.err := by
  rw [Status.word, BitVec.extractLsb'_append_eq_of_le (by decide)]
  exact BitVec.extractLsb'_append_eq_right

theorem Status.extractLsb'_word_reserved (st : Status) : st.word.extractLsb' 4 28 = 0 := by
  rw [Status.word, BitVec.extractLsb'_append_eq_of_le (by decide)]
  exact BitVec.extractLsb'_append_eq_left

/-- Settles O15: DONE, ERR and the reserved bits are the three parts STATUS is appended from. -/
theorem statusFieldsAndCodes : Obligations.StatusFieldsAndCodes := by
  unfold Obligations.StatusFieldsAndCodes
  exact ⟨fun st => ⟨st.getLsbD_word_done, st.extractLsb'_word_err, st.extractLsb'_word_reserved⟩,
    ErrorKind.code_invalidInput, ErrorKind.code_sizeMismatch, ErrorKind.code_configurationError,
    ErrorKind.code_capacityExceeded, ErrorKind.code_illegalCommand⟩

/-! The reset -/

/-- Settles O13: the wide registers hold zero words, and ID is the constant of every engine with LMAX = 512. -/
theorem resetStateValues : Obligations.ResetStateValues := by
  unfold Obligations.ResetStateValues
  exact ⟨rfl, State.sized_reset,
    fun k _ => ⟨getD_replicate_zero _ k, getD_replicate_zero _ k, getD_replicate_zero _ k⟩,
    rfl, rfl, rfl, rfl, rfl, rfl, readReg_id_of_lmax rfl⟩

end Sys2Proof.Machine
end

section
/-! SUPPORT. The register map of 20_memory.md R46 read in both directions, what a register holds after a write, and the
steps of a host access: the register it reaches, or the refusal it gets. -/

namespace Sys2Proof.Machine

/-! The register map -/

/-- From offset 0x040 on stand the words of A, B and R. -/
theorem regAt_of_le {nw off : Nat} (h : 0x040 ≤ off) :
    regAt nw off =
      if off < 0x040 + 4 * nw then .aWord ((off - 0x040) / 4)
      else if off < 0x040 + 8 * nw then .bWord ((off - (0x040 + 4 * nw)) / 4)
      else .rWord ((off - (0x040 + 8 * nw)) / 4) := by
  rw [regAt]
  iterate 8 rw [if_neg (by omega)]

section Words
variable {nw k : Nat}

theorem regAt_aWord (hk : k < nw) : regAt nw (0x040 + 4 * k) = .aWord k := by
  rw [regAt_of_le (by omega), if_pos (by omega), Nat.add_sub_cancel_left, Nat.mul_div_cancel_left k (by decide)]

theorem regAt_bWord (hk : k < nw) : regAt nw (0x040 + 4 * nw + 4 * k) = .bWord k := by
  rw [regAt_of_le (by omega), if_neg (by omega), if_pos (by omega), Nat.add_sub_cancel_left,
    Nat.mul_div_cancel_left k (by decide)]

theorem regAt_rWord : regAt nw (0x040 + 8 * nw + 4 * k) = .rWord k := by
  rw [regAt_of_le (by omega), if_neg (by omega), if_neg (by omega), Nat.add_sub_cancel_left,
    Nat.mul_div_cancel_left k (by decide)]

theorem regAt_reserved {off : Nat} (hlow : 0x01C ≤ off) (hhigh : off < 0x040) : regAt nw off = .reserved := by
  rw [regAt]
  iterate 7 rw [if_neg (by omega)]
  rw [if_pos hhigh]

end Words

/-- At an aligned offset stands the register whose offset it is; only the reserved offsets share one register. -/
theorem regOffset_regAt {nw off : Nat} (halign : off % 4 = 0) (hreg : regAt nw off ≠ .reserved) :
    regOffset nw (regAt nw off) = off := by
  by_cases hword : 0x040 ≤ off
  · rw [regAt_of_le hword]
    split_ifs <;> simp only [regOffset] <;> omega
  by_cases hfixed : off < 0x01C
  · obtain rfl | rfl | rfl | rfl | rfl | rfl | rfl : off = 0x000 ∨ off = 0x004 ∨ off = 0x008 ∨ off = 0x00C ∨
        off = 0x010 ∨ off = 0x014 ∨ off = 0x018 := by omega
    all_goals rfl
  · exact absurd (regAt_reserved (by omega) (by omega)) hreg

/-- A register that its own offset finds stands at no other aligned offset. -/
theorem regAt_eq_iff {nw off : Nat} {reg : Reg} (halign : off % 4 = 0) (hreg : reg ≠ .reserved)
    (hback : regAt nw (regOffset nw reg) = reg) : regAt nw off = reg ↔ off = regOffset nw reg := by
  constructor
  · rintro rfl
    exact (regOffset_regAt halign hreg).symm
  · rintro rfl
    exact hback

section Offsets
variable {nw off k : Nat} (halign : off % 4 = 0)
include halign

theorem regAt_eq_cmd_iff : regAt nw off = .cmd ↔ off = 0x004 := regAt_eq_iff halign (by simp) rfl
theorem regAt_eq_alen_iff : regAt nw off = .alen ↔ off = 0x00C := regAt_eq_iff halign (by simp) rfl
theorem regAt_eq_blen_iff : regAt nw off = .blen ↔ off = 0x010 := regAt_eq_iff halign (by simp) rfl
theorem regAt_eq_nlen_iff : regAt nw off = .nlen ↔ off = 0x014 := regAt_eq_iff halign (by simp) rfl
theorem regAt_eq_aWord_iff (hk : k < nw) : regAt nw off = .aWord k ↔ off = 0x040 + 4 * k :=
  regAt_eq_iff halign (by simp) (regAt_aWord hk)
theorem regAt_eq_bWord_iff (hk : k < nw) : regAt nw off = .bWord k ↔ off = 0x040 + 4 * nw + 4 * k :=
  regAt_eq_iff halign (by simp) (regAt_bWord hk)

end Offsets

/-! What a register write stores -/

section Write
variable (reg : Reg) (v : Word) (s : State)

theorem writeReg_alen : (writeReg reg v s).alen = if reg = .alen then v.setWidth 16 else s.alen := by
  cases reg <;> simp [writeReg]
theorem writeReg_blen : (writeReg reg v s).blen = if reg = .blen then v.setWidth 16 else s.blen := by
  cases reg <;> simp [writeReg]
theorem writeReg_nlen : (writeReg reg v s).nlen = if reg = .nlen then v.setWidth 16 else s.nlen := by
  cases reg <;> simp [writeReg]

/-- Storing at one index of a list that has it, and then reading at any index. -/
theorem getD_set {x : WideReg} {k : Nat} (hk : k < x.length) (j : Nat) :
    (x.set j v).getD k 0 = if j = k then v else x.getD k 0 := by
  rw [List.getD_eq_getElem?_getD, List.getElem?_set]
  split_ifs <;> simp_all

theorem writeReg_getD_a {k : Nat} (hk : k < s.a.length) :
    (writeReg reg v s).a.getD k 0 = if reg = .aWord k then v else s.a.getD k 0 := by
  cases reg with
  | aWord j => simpa only [writeReg, Reg.aWord.injEq] using getD_set v hk j
  | _ => simp [writeReg]

theorem writeReg_getD_b {k : Nat} (hk : k < s.b.length) :
    (writeReg reg v s).b.getD k 0 = if reg = .bWord k then v else s.b.getD k 0 := by
  cases reg with
  | bWord j => simpa only [writeReg, Reg.bWord.injEq] using getD_set v hk j
  | _ => simp [writeReg]

/-- The reads see no move still to be made. -/
theorem readReg_pending (moves : List HostAction) : readReg reg { s with pending := moves } = readReg reg s := by
  cases reg <;> rfl

end Write

theorem State.Sized.setPending {s : State} (h : s.Sized) (moves : List HostAction) :
    ({ s with pending := moves } : State).Sized := ⟨h.a, h.b, h.r⟩

/-! The step of an access -/

section Access
variable {s : State} {rest : List HostAction}

theorem step_cons {act : HostAction} (h : s.pending = act :: rest) :
    step s = perform act { s with pending := rest } := by
  rw [step, hostStep, h]

theorem locate_base_add {off : Nat} (halign : off % 4 = 0) (hoff : off < s.size) :
    locate s (s.base + off) 4 = .ok (regAt s.nw off) := by
  have hbase : s.base = 4 * s.baseIndex := rfl
  obtain ⟨-, -, -, -, h⟩ | ⟨hsize, -⟩ | ⟨-, hmis, -⟩ | ⟨-, -, hout, -⟩ := locate_cases s (s.base + off) 4
  · rw [h, Nat.add_sub_cancel_left]
  · exact absurd rfl hsize
  · omega
  · omega

/-- A write to a register other than CMD runs no command. -/
theorem hostWrite_of_ne_cmd {reg : Reg} (h : reg ≠ .cmd) (v : Word) (s : State) :
    hostWrite reg v s = .next (writeReg reg v s) := by
  cases reg with
  | cmd => exact absurd rfl h
  | _ => rfl

theorem step_memWrite {off : Nat} {v : Word} (halign : off % 4 = 0) (hoff : off < s.size) (hcmd : off ≠ 0x004)
    (h : s.pending = .memWrite (s.base + off) 4 v :: rest) :
    step s = .next (writeReg (regAt s.nw off) v { s with pending := rest }) := by
  have hreg : regAt s.nw off ≠ .cmd := fun hr => hcmd ((regAt_eq_cmd_iff halign).1 hr)
  rw [step_cons h]
  simp only [perform, locate_pending, locate_base_add halign hoff, hostWrite_of_ne_cmd hreg]

theorem step_memRead {off : Nat} (halign : off % 4 = 0) (hoff : off < s.size)
    (h : s.pending = .memRead (s.base + off) 4 :: rest) :
    step s = .next { s with pending := rest, returned := s.returned ++ [readReg (regAt s.nw off) s] } := by
  rw [step_cons h]
  simp only [perform, locate_pending, locate_base_add halign hoff, hostRead, readReg_pending]

theorem step_of_locate_error {addr size : Nat} {v : Word} {k : Refusal}
    (h : s.pending = .memWrite addr size v :: rest ∨ s.pending = .memRead addr size :: rest)
    (hl : locate s addr size = .error k) : step s = .refused k := by
  obtain h | h := h <;> rw [step_cons h] <;> simp only [perform, locate_pending, hl]

theorem run_succ_of_step (M : Host.Core) {s t : M.State} (h : M.step s = .next t) (k : Nat) :
    M.run (k + 1) s = M.run k t := by
  rw [Host.Core.run, h]

end Access

end Sys2Proof.Machine
end

section
/-! SUPPORT. The host's accesses to the register space (20_memory.md R45 to R50, R57). -/

namespace Sys2Proof.Machine

/-- Settles O7: the write is a register write, and each field asks whether its register stands at the offset. -/
theorem hostWriteStoresWritableBits : Obligations.HostWriteStoresWritableBits := by
  unfold Obligations.HostWriteStoresWritableBits
  intro s off v rest hsized halign hoff hcmd hp
  have hsized' := hsized.setPending rest
  refine ⟨_, step_memWrite halign hoff hcmd hp, ?_, ?_, ?_, fun k hk => ?_, fun k hk => ?_, writeReg_r _ _ _,
    writeReg_rlen _ _ _, writeReg_status _ _ _, hsized'.writeReg _ _, writeReg_capacity _ _ _,
    writeReg_baseIndex _ _ _, writeReg_pending _ _ _, writeReg_returned _ _ _⟩
  · simp only [writeReg_alen, regAt_eq_alen_iff halign, BitVec.ofNat_toNat]
  · simp only [writeReg_blen, regAt_eq_blen_iff halign, BitVec.ofNat_toNat]
  · simp only [writeReg_nlen, regAt_eq_nlen_iff halign, BitVec.ofNat_toNat]
  · rw [writeReg_getD_a _ _ _ (by rwa [hsized'.a])]
    simp only [regAt_eq_aWord_iff halign hk]
  · rw [writeReg_getD_b _ _ _ (by rwa [hsized'.b])]
    simp only [regAt_eq_bWord_iff halign hk]

/-- STATUS as a number: DONE is its lowest digit and ERR the rest (10_state.md R28). -/
theorem Status.toNat_word (st : Status) : st.word.toNat = st.done.toNat + 2 * st.err.toNat := by
  rw [Status.word, toNat_append_eq_add, toNat_append_eq_add, BitVec.toNat_ofBool]
  have hreserved : (0 : BitVec 28).toNat = 0 := rfl
  omega

/-- Settles O8: the read returns the register that the map puts at the offset. -/
theorem hostReadReturnsRegister : Obligations.HostReadReturnsRegister := by
  unfold Obligations.HostReadReturnsRegister
  intro s off rest halign hoff hp
  refine ⟨_, step_memRead halign hoff hp, ?_, ?_, ?_, ?_, ?_, ?_, ?_, fun hlow hhigh => ?_, ?_, ?_, ?_⟩
  · rintro rfl
    rfl
  · rintro rfl
    rfl
  · rintro rfl
    exact s.status.toNat_word
  · rintro rfl
    exact BitVec.toNat_setWidth_of_le (by decide)
  · rintro rfl
    exact BitVec.toNat_setWidth_of_le (by decide)
  · rintro rfl
    exact BitVec.toNat_setWidth_of_le (by decide)
  · rintro rfl
    exact BitVec.toNat_setWidth_of_le (by decide)
  · rw [regAt_reserved hlow (by omega), readReg]
  · rintro k hk rfl
    rw [regAt_aWord hk, readReg]
  · rintro k hk rfl
    rw [regAt_bWord hk, readReg]
  · rintro k - rfl
    rw [regAt_rWord, readReg]

/-- A length register holds bits 15:0 of what is written to it (20_memory.md R46). -/
theorem setWidth_setWidth_length (v : Word) : (v.setWidth 16).setWidth 32 = BitVec.ofNat 32 (v.toNat % 65536) :=
  BitVec.eq_of_toNat_eq (by simp)

/-- A writable register holds the written bits. -/
theorem readReg_writeReg_self {s : State} {off : Nat} (v : Word) (hsized : s.Sized) (halign : off % 4 = 0)
    (hoff : (0x00C ≤ off ∧ off ≤ 0x014) ∨ (0x040 ≤ off ∧ off < 0x040 + 8 * s.nw)) :
    readReg (regAt s.nw off) (writeReg (regAt s.nw off) v s) =
      if off ≤ 0x014 then BitVec.ofNat 32 (v.toNat % 65536) else v := by
  obtain ⟨hlow, hhigh⟩ | ⟨hlow, hhigh⟩ := hoff
  · rw [if_pos hhigh, ← setWidth_setWidth_length]
    obtain rfl | rfl | rfl : off = 0x00C ∨ off = 0x010 ∨ off = 0x014 := by omega
    · rfl
    · rfl
    · rfl
  · rw [if_neg (by omega)]
    by_cases ha : off < 0x040 + 4 * s.nw
    · obtain ⟨k, hk, rfl⟩ : ∃ k, k < s.nw ∧ off = 0x040 + 4 * k := ⟨(off - 0x040) / 4, by omega, by omega⟩
      rw [regAt_aWord hk, readReg, writeReg_getD_a _ _ _ (by rwa [hsized.a]), if_pos rfl]
    · obtain ⟨k, hk, rfl⟩ : ∃ k, k < s.nw ∧ off = 0x040 + 4 * s.nw + 4 * k :=
        ⟨(off - (0x040 + 4 * s.nw)) / 4, by omega, by omega⟩
      rw [regAt_bWord hk, readReg, writeReg_getD_b _ _ _ (by rwa [hsized.b]), if_pos rfl]

/-- Settles O10: the read finds the register that the write has just stored into. -/
theorem readAfterWriteReturnsWrittenBits : Obligations.ReadAfterWriteReturnsWrittenBits := by
  unfold Obligations.ReadAfterWriteReturnsWrittenBits
  intro s off v rest hsized halign hoff hp
  have hinside : off < s.size := by
    rw [s.size_eq]
    omega
  have hwrite := step_memWrite halign hinside (by omega) hp
  have hread := step_memRead (s := writeReg (regAt s.nw off) v { s with pending := .memRead (s.base + off) 4 :: rest })
    (rest := rest) halign (by rwa [State.size, writeReg_capacity])
    (by rw [writeReg_pending, State.base, State.base, writeReg_baseIndex])
  refine ⟨_, (run_succ_of_step Sys2Proof.core hwrite 1).trans (run_succ_of_step Sys2Proof.core hread 0), rfl, ?_⟩
  rw [writeReg_returned, writeReg_nw]
  exact congrArg (s.returned ++ [·]) (readReg_writeReg_self v (hsized.setPending _) halign hoff)

/-- Settles O9: a read-only register and a reserved offset store nothing, and CMD and a reserved offset hold nothing. -/
theorem accessRightsOfTheRegisterSpace : Obligations.AccessRightsOfTheRegisterSpace := by
  unfold Obligations.AccessRightsOfTheRegisterSpace
  constructor
  · intro s off v rest halign hro hp
    have hsize := s.size_eq
    rw [step_memWrite halign (by omega) (by omega) hp]
    obtain rfl | rfl | ⟨hlow, hhigh⟩ | ⟨hlow, -⟩ := hro
    · rfl
    · rfl
    · obtain rfl | hlow := hlow.eq_or_lt
      · rfl
      · rw [regAt_reserved (by omega) hhigh, writeReg]
    · obtain ⟨k, rfl⟩ : ∃ k, off = 0x040 + 8 * s.nw + 4 * k := ⟨(off - (0x040 + 8 * s.nw)) / 4, by omega⟩
      rw [regAt_rWord, writeReg]
  · intro s off rest halign hzero hp
    have hsize := s.size_eq
    rw [step_memRead halign (by omega) hp]
    obtain rfl | ⟨hlow, hhigh⟩ := hzero
    · rfl
    · rw [regAt_reserved hlow hhigh, readReg]

/-- Settles O11: where an access goes is decided before anything is written or read. -/
theorem undefinedAccessIsRefused : Obligations.UndefinedAccessIsRefused := by
  unfold Obligations.UndefinedAccessIsRefused
  intro s addr size v rest hp
  refine ⟨fun hsize => step_of_locate_error hp ?_, fun hsize hmis => step_of_locate_error hp ?_,
    fun hsize halign hout => step_of_locate_error hp ?_⟩
  · rw [locate, if_pos hsize]
  · rw [locate, if_neg (not_not_intro hsize), if_pos hmis]
  · rw [locate, if_neg (not_not_intro hsize), if_neg (not_not_intro halign), if_pos hout]

end Sys2Proof.Machine
end

section
/-! SUPPORT. Which commands answer, and that a command repeated answers the same (20_memory.md R50). -/

namespace Sys2Proof.Machine

theorem finish_next (check : Option ErrorKind) (value : State → BitSeq) (s : State) :
    ∃ t, finish check value s = .next t := by
  obtain ⟨k, -, h⟩ | ⟨-, h⟩ := finish_cases check value s <;> exact ⟨_, h⟩

/-- A well-formed command answers a next state in every state (60_exceptions.md R165). -/
theorem exec_next_of_wellFormed {i : Instr} (h : i.WellFormed) (s : State) : ∃ t, exec i s = .next t := by
  cases i with
  | derive ridx =>
    rw [exec_derive (of_decide_eq_true h)]
    exact finish_next _ _ s
  | mva => exact ⟨_, exec_mva s⟩
  | mvb => exact ⟨_, exec_mvb s⟩
  | _ =>
    simp only [exec_expand, exec_gen, exec_sub, exec_unsub, exec_perm, exec_unperm, exec_rndf, exec_rndi, exec_enc,
      exec_dec]
    exact finish_next _ _ s

theorem wellFormed_of_exec {i : Instr} {s t : State} (h : exec i s = .next t) : i.WellFormed := by
  cases i with
  | derive ridx => exact decide_eq_true (ridx_le_of_exec h)
  | _ => rfl

/-- A state is its operands, its result and the model's own fields. -/
theorem State.eq_of_same {t t' : State} (hops : SameOperands t t') (hres : SameResult t t')
    (hplatform : SamePlatform t t') : t = t' := by
  obtain ⟨ha, halen, hb, hblen, hnlen⟩ := hops
  obtain ⟨hr, hrlen, hstatus⟩ := hres
  obtain ⟨hcapacity, hbase, hpending, hreturned⟩ := hplatform
  cases t
  cases t'
  exact State.mk.injEq .. ▸ ⟨hstatus, ha.symm, hb.symm, hr, halen.symm, hblen.symm, hnlen.symm, hrlen, hcapacity.symm,
    hbase.symm, hpending.symm, hreturned.symm⟩

/-- Settles O21: a transfer copies an R it leaves as it is, and every other command finds in its next state the operands
it read before. -/
theorem repeatedCommandChangesNothing : Obligations.RepeatedCommandChangesNothing := by
  unfold Obligations.RepeatedCommandChangesNothing
  intro i s t h
  by_cases ha : i = .mva
  · subst ha
    obtain rfl := eq_moveToA_of_exec h
    exact exec_mva _
  by_cases hb : i = .mvb
  · subst hb
    obtain rfl := eq_moveToB_of_exec h
    exact exec_mvb _
  obtain ⟨t', h'⟩ := exec_next_of_wellFormed (wellFormed_of_exec h) t
  have hreads := sameReads_of_sameOperands (sameOperands_of_exec ha hb h) i
  have hresult := sameResult_of_exec ha hb h h' (samePlatform_of_exec h).capacity.symm hreads
  rw [h', State.eq_of_same (sameOperands_of_exec ha hb h') hresult (samePlatform_of_exec h')]

end Sys2Proof.Machine
end

section
/-! SUPPORT. A launch of legal moves: each move has a next state, and the moves left are a legal launch again
(20_memory.md R47, R51, 60_exceptions.md R165). -/

namespace Sys2Proof.Machine

/-! Every legal move answers -/

theorem wellFormed_of_plainCommand {op : BitVec 8} {i : Instr} (h : plainCommand op = .ok i) : i.WellFormed := by
  rw [plainCommand] at h
  split at h <;> cases h <;> rfl

/-- What the decoder accepts has a meaning: RIDX has eight bits (30_encoding.md R65). -/
theorem wellFormed_of_decode {w : Word} {i : Instr} (h : decode w = .ok i) : i.WellFormed := by
  rw [decode] at h
  split_ifs at h
  · cases h
    exact decide_eq_true (Nat.le_of_lt_succ (ridxField w).isLt)
  · exact wellFormed_of_plainCommand h

theorem runCommand_next (w : Word) (s : State) : ∃ t, runCommand w s = .next t := by
  rw [runCommand]
  cases hd : decode w with
  | ok i => exact exec_next_of_wellFormed (wellFormed_of_decode hd) s
  | error e => exact ⟨_, rfl⟩

theorem hostWrite_next (reg : Reg) (v : Word) (s : State) : ∃ t, hostWrite reg v s = .next t := by
  cases reg with
  | cmd => exact runCommand_next v s
  | _ => exact ⟨_, rfl⟩

/-- A legal access is located (20_memory.md R45, R47). -/
theorem locate_of_legal {s : State} {addr size : Nat}
    (h : (size == 4 && addr % 4 == 0 && decide (s.base ≤ addr) && decide (addr < s.base + s.size)) = true) :
    locate s addr size = .ok (regAt s.nw (addr - s.base)) := by
  simp only [Bool.and_eq_true, beq_iff_eq, decide_eq_true_eq] at h
  obtain ⟨⟨⟨rfl, halign⟩, hlow⟩, hhigh⟩ := h
  rw [locate, if_neg (by simp), if_neg (not_not_intro halign), if_neg (by omega)]

theorem perform_next_of_legal {act : HostAction} {s : State} (h : act.legal s.base s.size = true) :
    ∃ t, perform act s = .next t := by
  cases act with
  | memWrite addr size v =>
    simp only [perform, locate_of_legal h]
    exact hostWrite_next _ v s
  | memRead addr size =>
    simp only [perform, locate_of_legal h]
    exact ⟨_, rfl⟩
  | reset => exact ⟨_, rfl⟩

/-! A launch runs -/

theorem step_next_of_launchLegal {s : State} (h : s.launchLegal = true) : ∃ t, step s = .next t := by
  cases hp : s.pending with
  | nil => exact ⟨s, by rw [step, hostStep, hp]⟩
  | cons act rest =>
    rw [step_cons hp]
    rw [State.launchLegal, hp, List.all_cons, Bool.and_eq_true] at h
    exact perform_next_of_legal (s := { s with pending := rest }) h.1

/-- The fields that no move writes, and the moves left. -/
theorem frame_of_step {s t : State} (h : step s = .next t) :
    t.pending = s.pending.tail ∧ t.baseIndex = s.baseIndex ∧ t.capacity = s.capacity := by
  obtain ⟨hp, rfl⟩ | ⟨act, rest, hp, hact⟩ := step_cases h
  · simp [hp]
  · rw [hp, List.tail_cons]
    obtain ⟨_, _, _, -, -, -, he⟩ | ⟨_, _, _, -, -, -, rfl⟩ | ⟨_, _, -, -, rfl⟩ | ⟨_, -, rfl⟩ | ⟨-, rfl⟩ := hact
    · obtain ⟨hcapacity, hbase, hpending, -⟩ := samePlatform_of_exec he
      exact ⟨hpending, hbase, hcapacity⟩
    · exact ⟨rfl, rfl, rfl⟩
    · exact ⟨writeReg_pending _ _ _, writeReg_baseIndex _ _ _, writeReg_capacity _ _ _⟩
    · exact ⟨rfl, rfl, rfl⟩
    · exact ⟨rfl, rfl, rfl⟩

theorem launchLegal_of_step {s t : State} (hs : s.launchLegal = true) (h : step s = .next t) :
    t.launchLegal = true := by
  obtain ⟨hpending, hbase, hcapacity⟩ := frame_of_step h
  rw [State.launchLegal, State.base, State.size, hpending, hbase, hcapacity, List.all_eq_true]
  exact fun act hact => List.all_eq_true.1 hs act (List.mem_of_mem_tail hact)

/-- Settles O18, by induction on the number of steps: a step of a legal launch answers, drops its first move and leaves
a legal launch. -/
theorem legalLaunchRunsToItsEnd : Obligations.LegalLaunchRunsToItsEnd := by
  unfold Obligations.LegalLaunchRunsToItsEnd
  intro s hs k
  induction k generalizing s with
  | zero => exact ⟨s, rfl, rfl, rfl, rfl⟩
  | succ k ih =>
    obtain ⟨s', hstep⟩ := step_next_of_launchLegal hs
    obtain ⟨hpending, hbase, hcapacity⟩ := frame_of_step hstep
    obtain ⟨t, hrun, htpending, htbase, htcapacity⟩ := ih s' (launchLegal_of_step hs hstep)
    refine ⟨t, (run_succ_of_step Sys2Proof.core hstep k).trans hrun, ?_, htbase.trans hbase, htcapacity.trans hcapacity⟩
    rw [htpending, hpending, List.drop_tail]

end Sys2Proof.Machine
end

section
/-! SUPPORT. The fields of a command word as numbers, and that the decoder and the encoder undo each other
(30_encoding.md R65, R68). -/

namespace Sys2Proof.Machine

/-! The fields of a word -/

theorem toNat_opField (w : Word) : (opField w).toNat = w.toNat % 256 := by
  simp [opField]

theorem toNat_ridxField (w : Word) : (ridxField w).toNat = w.toNat / 256 % 256 := by
  simp [ridxField, Nat.shiftRight_eq_div_pow]

theorem toNat_reservedField (w : Word) : (reservedField w).toNat = w.toNat / 65536 := by
  have := w.isLt
  simp only [reservedField, BitVec.extractLsb'_toNat, Nat.shiftRight_eq_div_pow]
  omega

theorem reservedField_eq_zero_iff {w : Word} : reservedField w = 0 ↔ w.toNat / 65536 = 0 := by
  rw [← BitVec.toNat_inj, toNat_reservedField]
  rfl

/-- A command word as a number: its reserved field adds nothing (30_encoding.md R72). -/
theorem toNat_encode (i : Instr) : (encode i).toNat = 256 * (ridxOf i).toNat + (opcodeOf i).toNat := by
  have hop := (opcodeOf i).isLt
  have hridx := (ridxOf i).isLt
  have hreserved : (0 : BitVec 16).toNat = 0 := rfl
  rw [encode, BitVec.toNat_append, BitVec.toNat_append, ← Nat.shiftLeft_add_eq_or_of_lt hop,
    ← Nat.shiftLeft_add_eq_or_of_lt hridx, Nat.shiftLeft_eq, Nat.shiftLeft_eq, hreserved]
  omega

theorem opField_encode (i : Instr) : opField (encode i) = opcodeOf i := by
  have := (opcodeOf i).isLt
  apply BitVec.eq_of_toNat_eq
  rw [toNat_opField, toNat_encode]
  omega

theorem ridxField_encode (i : Instr) : ridxField (encode i) = ridxOf i := by
  have := (opcodeOf i).isLt
  have := (ridxOf i).isLt
  apply BitVec.eq_of_toNat_eq
  rw [toNat_ridxField, toNat_encode]
  omega

theorem reservedField_encode (i : Instr) : reservedField (encode i) = 0 := by
  have := (opcodeOf i).isLt
  have := (ridxOf i).isLt
  rw [reservedField_eq_zero_iff, toNat_encode]
  omega

/-- A command whose fields a word without reserved bits has is encoded as that word. -/
theorem encode_eq_of_fields {w : Word} {i : Instr} (hreserved : reservedField w = 0) (hridx : ridxOf i = ridxField w)
    (hop : opcodeOf i = opField w) : encode i = w := by
  have hzero := reservedField_eq_zero_iff.1 hreserved
  apply BitVec.eq_of_toNat_eq
  rw [toNat_encode, hridx, hop, toNat_ridxField, toNat_opField]
  omega

/-! The commands other than DERIVE -/

theorem opcodeOf_of_plainCommand {op : BitVec 8} {i : Instr} (h : plainCommand op = .ok i) :
    opcodeOf i = op ∧ ridxOf i = 0 := by
  rw [plainCommand] at h
  split at h <;> cases h <;> exact ⟨(BitVec.eq_of_toNat_eq ‹_›).symm, rfl⟩

/-! Decoding and encoding -/

/-- Settles O1: the tests of the decoder see the fields the encoder wrote; for DERIVE the well-formed round index fits
RIDX, and the other opcodes select their commands. -/
theorem decodeInvertsEncode : Obligations.DecodeInvertsEncode := by
  unfold Obligations.DecodeInvertsEncode
  intro i hi
  rw [decode, reservedField_encode, opField_encode, ridxField_encode, if_neg (not_not_intro rfl)]
  cases i with
  | derive ridx =>
    have hle : ridx ≤ 255 := of_decide_eq_true hi
    rw [if_pos (by rfl), ridxOf, BitVec.toNat_ofNat, Nat.mod_eq_of_lt (by omega)]
  | _ => rfl

/-- Settles O2: each test that lets a word through fixes one field of it, and the three fields are the whole word. -/
theorem encodeInvertsDecode : Obligations.EncodeInvertsDecode := by
  unfold Obligations.EncodeInvertsDecode
  intro w i h
  refine ⟨?_, wellFormed_of_decode h⟩
  rw [decode] at h
  split_ifs at h with hreserved hop hridx
  · cases h
    exact encode_eq_of_fields (not_not.1 hreserved) (by simp [ridxOf]) hop.symm
  · obtain ⟨hopcode, hzero⟩ := opcodeOf_of_plainCommand h
    exact encode_eq_of_fields (not_not.1 hreserved) (hzero.trans (not_not.1 hridx).symm) hopcode

theorem decode_eq_ok_iff {w : Word} {i : Instr} : decode w = .ok i ↔ encode i = w ∧ i.WellFormed :=
  ⟨encodeInvertsDecode w i, fun ⟨hw, hi⟩ => hw ▸ decodeInvertsEncode i hi⟩

/-- Settles O4: closed words, evaluated. -/
theorem writtenWordsDecode : Obligations.WrittenWordsDecode := by
  unfold Obligations.WrittenWordsDecode
  decide

end Sys2Proof.Machine
end

section
/-! SUPPORT. Which words are commands, by their number and by the rows of opcode_table.json (30_encoding.md R68, R69). -/

namespace Sys2Proof.Machine

/-! The legal words as numbers -/

theorem exists_error_iff {w : Word} : (∃ e, decode w = .error e) ↔ ∀ i, decode w ≠ .ok i := by
  cases decode w <;> simp

/-- A legal word is DERIVE's opcode under any round index, or one of the twelve other opcodes alone. -/
theorem decode_error_of_toNat {w : Word}
    (h : ¬((w.toNat < 65536 ∧ w.toNat % 256 = 0x11) ∨
      w.toNat = 0x01 ∨ w.toNat = 0x02 ∨ w.toNat = 0x03 ∨ w.toNat = 0x10 ∨ w.toNat = 0x20 ∨ w.toNat = 0x21 ∨
      w.toNat = 0x22 ∨ w.toNat = 0x23 ∨ w.toNat = 0x30 ∨ w.toNat = 0x31 ∨ w.toNat = 0x40 ∨ w.toNat = 0x41)) :
    ∃ e, decode w = .error e := by
  refine exists_error_iff.2 fun i hi => h ?_
  obtain ⟨rfl, -⟩ := decode_eq_ok_iff.1 hi
  rw [toNat_encode]
  cases i with
  | derive ridx =>
    have := (ridxOf (.derive ridx)).isLt
    have hop : (opcodeOf (.derive ridx)).toNat = 0x11 := rfl
    omega
  | _ => exact .inr (by decide)

theorem decode_derive {w : Word} (hreserved : w.toNat / 65536 = 0) (hop : w.toNat % 256 = 0x11) :
    decode w = .ok (.derive (w.toNat / 256 % 256)) := by
  refine decode_eq_ok_iff.2 ⟨encode_eq_of_fields (reservedField_eq_zero_iff.2 hreserved) ?_ (BitVec.eq_of_toNat_eq ?_),
    decide_eq_true (by omega)⟩
  · rw [ridxOf, ← toNat_ridxField, BitVec.ofNat_toNat, BitVec.setWidth_eq]
  · rw [toNat_opField, hop]
    rfl

/-! The rows of the table -/

/-- Each row but DERIVE's is the encoding of its command, compared in every bit. -/
theorem opcodeTable_cases {row : OpcodeRow} (h : row ∈ opcodeTable) :
    row = ⟨"DERIVE", 0x00000011, 0xFFFF00FF⟩ ∨
      ∃ i ∈ [Instr.expand, .gen, .sub, .unsub, .perm, .unperm, .rndf, .rndi, .enc, .dec, .mva, .mvb],
        i.WellFormed ∧ row = ⟨mnemonicOf i, encode i, 0xFFFFFFFF⟩ := by
  revert row
  decide +kernel

theorem eq_of_mnemonic_eq {row row' : OpcodeRow} (hrow : row ∈ opcodeTable) (hrow' : row' ∈ opcodeTable)
    (h : row.mnemonic = row'.mnemonic) : row = row' := by
  have hall : ∀ row ∈ opcodeTable, ∀ row' ∈ opcodeTable, row.mnemonic = row'.mnemonic → row = row' := by
    decide +kernel
  exact hall row hrow row' hrow' h

/-- Every command has its row: the family of Sys2Proof/Laws/PerInstr.lean, put together. -/
theorem exists_row_selects_encode {i : Instr} (hi : i.WellFormed) :
    ∃ row, row ∈ opcodeTable ∧ row.mnemonic = mnemonicOf i ∧ row.selects (encode i) = true := by
  cases i with
  | expand => exact Laws.TableRow.expand hi
  | gen => exact Laws.TableRow.gen hi
  | derive ridx => exact Laws.TableRow.derive ridx hi
  | sub => exact Laws.TableRow.sub hi
  | unsub => exact Laws.TableRow.unsub hi
  | perm => exact Laws.TableRow.perm hi
  | unperm => exact Laws.TableRow.unperm hi
  | rndf => exact Laws.TableRow.rndf hi
  | rndi => exact Laws.TableRow.rndi hi
  | enc => exact Laws.TableRow.enc hi
  | dec => exact Laws.TableRow.dec hi
  | mva => exact Laws.TableRow.mva hi
  | mvb => exact Laws.TableRow.mvb hi

/-- DERIVE's mask leaves OP and the reserved bits of a word. -/
theorem toNat_of_derive_selects {w : Word} (h : w &&& 0xFFFF00FF = 0x00000011) :
    w.toNat / 65536 = 0 ∧ w.toNat % 256 = 0x11 := by
  have hop : opField (w &&& 0xFFFF00FF) = opField w := by
    rw [opField, BitVec.extractLsb'_and]
    exact BitVec.and_allOnes
  have hreserved : reservedField (w &&& 0xFFFF00FF) = reservedField w := by
    rw [reservedField, BitVec.extractLsb'_and]
    exact BitVec.and_allOnes
  rw [← toNat_reservedField, ← toNat_opField, ← hop, ← hreserved, h]
  decide

/-- The table's reading of a word is the decoder's: a row selects the words that decode to the command it names. -/
theorem selects_iff {row : OpcodeRow} (hrow : row ∈ opcodeTable) (w : Word) :
    row.selects w = true ↔ ∃ i, decode w = .ok i ∧ row.mnemonic = mnemonicOf i := by
  constructor
  · intro h
    rw [OpcodeRow.selects, beq_iff_eq] at h
    obtain rfl | ⟨i, -, hi, rfl⟩ := opcodeTable_cases hrow
    · obtain ⟨hreserved, hop⟩ := toNat_of_derive_selects h
      exact ⟨_, decode_derive hreserved hop, rfl⟩
    · have hw : w &&& BitVec.allOnes 32 = encode i := h
      rw [BitVec.and_allOnes] at hw
      exact ⟨i, decode_eq_ok_iff.2 ⟨hw.symm, hi⟩, rfl⟩
  · rintro ⟨i, h, hname⟩
    obtain ⟨rfl, hi⟩ := decode_eq_ok_iff.1 h
    obtain ⟨row', hrow', hname', hselects⟩ := exists_row_selects_encode hi
    rwa [eq_of_mnemonic_eq hrow hrow' (hname.trans hname'.symm)]

/-- The rows are disjoint: both name the one command that the word decodes to. -/
theorem row_eq_of_selects {row row' : OpcodeRow} {w : Word} (hrow : row ∈ opcodeTable) (hrow' : row' ∈ opcodeTable)
    (h : row.selects w = true) (h' : row'.selects w = true) : row = row' := by
  obtain ⟨i, hi, hname⟩ := (selects_iff hrow w).1 h
  obtain ⟨i', hi', hname'⟩ := (selects_iff hrow' w).1 h'
  obtain rfl : i = i' := Except.ok.inj (hi.symm.trans hi')
  exact eq_of_mnemonic_eq hrow hrow' (hname.trans hname'.symm)

theorem exists_row_selects_of_decode {w : Word} {i : Instr} (h : decode w = .ok i) :
    ∃ row, row ∈ opcodeTable ∧ row.mnemonic = mnemonicOf i ∧ row.selects w = true := by
  obtain ⟨rfl, hi⟩ := decode_eq_ok_iff.1 h
  exact exists_row_selects_encode hi

theorem exists_error_iff_no_row_selects {w : Word} :
    (∃ e, decode w = .error e) ↔ ∀ row, row ∈ opcodeTable → row.selects w = false := by
  rw [exists_error_iff]
  constructor
  · intro h row hrow
    rw [Bool.eq_false_iff]
    intro hselects
    obtain ⟨i, hi, -⟩ := (selects_iff hrow w).1 hselects
    exact h i hi
  · intro h i hi
    obtain ⟨row, hrow, -, hselects⟩ := exists_row_selects_of_decode hi
    simp [h row hrow] at hselects

/-- Settles O3: the illegal classes lie outside the legal numbers, the listed words are the encodings of their commands,
and the rows select what decodes. -/
theorem decodeFollowsFieldTestsAndTable : Obligations.DecodeFollowsFieldTestsAndTable := by
  unfold Obligations.DecodeFollowsFieldTestsAndTable
  intro w
  refine ⟨fun hreserved => ?_, decode_derive, fun hreserved hop hridx => ?_, fun p hp hw => ?_, fun hlt hop => ?_,
    fun i => exists_row_selects_of_decode, exists_error_iff_no_row_selects, fun row row' => row_eq_of_selects⟩
  · exact decode_error_of_toNat (by omega)
  · exact decode_error_of_toNat (by omega)
  · have hcode : (encode p.2).toNat = p.1 ∧ p.2.WellFormed := by
      clear hw
      revert p
      decide +kernel
    exact decode_eq_ok_iff.2 ⟨BitVec.eq_of_toNat_eq (hcode.1.trans hw.symm), hcode.2⟩
  · simp only [List.mem_cons, List.not_mem_nil, or_false] at hop
    exact decode_error_of_toNat (by omega)

end Sys2Proof.Machine
end

section
/-! SUPPORT. The step of a write to CMD (30_encoding.md R69, R74). -/

namespace Sys2Proof.Machine

/-- A host write to CMD runs the word written, in the state with that move taken. -/
theorem step_commandWrite {s : State} {w : Word} {rest : List HostAction}
    (h : s.pending = .memWrite (s.base + 0x004) 4 w :: rest) : step s = runCommand w { s with pending := rest } := by
  have hsize : 0x004 < s.size := by
    rw [s.size_eq]
    omega
  have hreg : regAt s.nw 0x004 = .cmd := rfl
  rw [step_cons h]
  simp only [perform, locate_pending, locate_base_add (s := s) (off := 0x004) rfl hsize, hreg, hostWrite]

theorem runCommand_of_decode {w : Word} {i : Instr} (h : decode w = .ok i) (s : State) :
    runCommand w s = exec i s := by
  rw [runCommand, h]

theorem runCommand_of_error {w : Word} {e : DecodeError} (h : decode w = .error e) (s : State) :
    runCommand w s = .next (s.fail .illegalCommand) := by
  rw [runCommand, h]

theorem decodeTableWord_eq_some_iff {nbits n : Nat} {i : Instr} :
    decodeTableWord nbits n = some i ↔ decode (BitVec.ofNat 32 (n % 2 ^ nbits)) = .ok i := by
  rw [decodeTableWord]
  cases decode (BitVec.ofNat 32 (n % 2 ^ nbits)) <;> simp [Except.toOption]

/-- Settles O5: both clauses are the step of a write to CMD; `withFetchWord` puts that write before the pending moves. -/
theorem stepRunsDecodedCommand : Obligations.StepRunsDecodedCommand := by
  unfold Obligations.StepRunsDecodedCommand
  constructor
  · intro s w i rest hp hd
    rw [step_commandWrite hp, runCommand_of_decode hd]
  · intro s n i _ hd
    have hp : (s.withFetchWord 32 n).pending = commandWrite s 32 n :: s.pending := rfl
    rw [step_commandWrite hp, runCommand_of_decode (decodeTableWord_eq_some_iff.1 hd)]
    rfl

/-- Settles O6: none of the listed classes holds a legal word, so the write to CMD ends in `Fail`. -/
theorem illegalWordFailsAtOnce : Obligations.IllegalWordFailsAtOnce := by
  unfold Obligations.IllegalWordFailsAtOnce
  intro s w rest hp hillegal
  obtain ⟨e, he⟩ : ∃ e, decode w = .error e := decode_error_of_toNat (by omega)
  exact ⟨_, (step_commandWrite hp).trans (runCommand_of_error he _), failed_fail _ .illegalCommand⟩

end Sys2Proof.Machine
end

section
/-! SUPPORT. Bit sequences element by element (40_bitvector_and_hash.md R83) and their bytes (R87, R88). -/

namespace Sys2Proof.Machine

/-! XOR of sequences -/

theorem eq_of_bitOrZero {s t : BitSeq} (hlen : s.length = t.length)
    (hbit : ∀ i, i < s.length → bitOrZero s i = bitOrZero t i) : s = t := by
  refine List.ext_getElem hlen fun i hs ht => ?_
  simpa [bitOrZero, hs, ht] using hbit i hs

theorem bitOrZero_zeros (n i : Nat) : bitOrZero (zeros n) i = false := by
  simp only [bitOrZero, zeros, List.getD_eq_getElem?_getD, List.getElem?_replicate]
  split <;> rfl

theorem bitOrZero_xorSeq {s t : BitSeq} (h : s.length = t.length) (i : Nat) :
    bitOrZero (xorSeq s t) i = (bitOrZero s i ^^ bitOrZero t i) := by
  rcases Nat.lt_or_ge i s.length with hi | hi
  · simp [bitOrZero, xorSeq, hi, h ▸ hi]
  · have hxor : (xorSeq s t).length ≤ i := by simp [hi]
    rw [bitOrZero_of_length_le _ _ hxor, bitOrZero_of_length_le _ _ hi, bitOrZero_of_length_le _ _ (h ▸ hi),
      Bool.xor_self]

theorem length_xorSeq_left {s t : BitSeq} (h : s.length = t.length) : (xorSeq s t).length = s.length := by simp [h]

theorem xorSeq_comm (s t : BitSeq) : xorSeq s t = xorSeq t s := List.zipWith_comm_of_comm Bool.xor_comm

theorem xorSeq_xorSeq_cancel {s t : BitSeq} (h : s.length = t.length) : xorSeq (xorSeq s t) t = s := by
  have hlen := length_xorSeq_left h
  refine eq_of_bitOrZero (by simp [h]) fun i _ => ?_
  rw [bitOrZero_xorSeq (hlen.trans h), bitOrZero_xorSeq h, Bool.xor_assoc, Bool.xor_self, Bool.xor_false]

theorem xorSeq_zeros (s : BitSeq) : xorSeq s (zeros s.length) = s := by
  have hlen : s.length = (zeros s.length).length := by simp [zeros]
  refine eq_of_bitOrZero (length_xorSeq_left hlen) fun i _ => ?_
  rw [bitOrZero_xorSeq hlen, bitOrZero_zeros, Bool.xor_false]

/-- Settles O37: XOR acts on each element by itself, where its laws are those of addition modulo 2. -/
theorem xorOfSequences : Obligations.XorOfSequences := by
  unfold Obligations.XorOfSequences
  intro s t h
  refine ⟨length_xorSeq_left h, fun i _ => ?_, xorSeq_comm s t, xorSeq_xorSeq_cancel h, xorSeq_zeros s⟩
  rw [bitOrZero_xorSeq h]
  cases bitOrZero s i <;> cases bitOrZero t i <;> rfl

/-! Bytes of a sequence and back -/

theorem getLsbD_ser {s : BitSeq} {k j : Nat} (hk : k < (s.length + 7) / 8) (hj : j < 8) :
    ((ser s).getD k 0).getLsbD (7 - j) = bitOrZero s (8 * k + j) := by
  have hbyte : (ser s).getD k 0 = BitVec.ofNat 8 (msbNat (fun j => bitOrZero s (8 * k + j)) 8) := by simp [ser, hk]
  rw [hbyte, getLsbD_ofNat_msbNat _ 8 j hj]

theorem getElem?_unser (d : List Byte) {n i : Nat} (h : i < n) :
    (unser d n)[i]? = some ((d.getD (i / 8) 0).getLsbD (7 - i % 8)) := by
  simp [unser, h]

theorem unser_ser (s : BitSeq) : unser (ser s) s.length = s := by
  refine eq_of_bitOrZero (length_unser _ _) fun i hi => ?_
  rw [length_unser] at hi
  rw [bitOrZero, List.getD_eq_getElem?_getD, getElem?_unser _ hi,
    getLsbD_ser (by omega) (Nat.mod_lt _ (by decide)), Nat.div_add_mod, Option.getD_some]

/-- Settles O38: a byte of `ser` is the number its eight elements write, so its bits are those elements. -/
theorem serAndUnserMostSignificantFirst : Obligations.SerAndUnserMostSignificantFirst := by
  unfold Obligations.SerAndUnserMostSignificantFirst
  refine ⟨fun s => ⟨length_ser s, fun k hk j hj => ?_⟩, fun d n i _ hi => ⟨length_unser d n, getElem?_unser d hi⟩,
    unser_ser⟩
  rw [getLsbD_ser hk hj]
  split
  next => rfl
  next hend => exact bitOrZero_of_length_le s _ (by omega)

end Sys2Proof.Machine
end

section
/-! SUPPORT. The word operations of SHA-256 (40_bitvector_and_hash.md R91), its padding, words and blocks (R90). -/

namespace Sys2Proof.Machine

/-! The word operations -/

theorem toNat_shr (x : Word) (n : Nat) : (shr x n).toNat = x.toNat / 2 ^ n := by
  rw [shr, BitVec.toNat_ushiftRight, Nat.shiftRight_eq_div_pow]

theorem toNat_rotr (x : Word) (n : Nat) :
    (rotr x n).toNat = (x.toNat / 2 ^ n) ||| ((x.toNat * 2 ^ (32 - n)) % 2 ^ 32) := by
  rw [rotr, BitVec.toNat_or, BitVec.toNat_ushiftRight, BitVec.toNat_shiftLeft, Nat.shiftRight_eq_div_pow,
    Nat.shiftLeft_eq]

theorem getLsbD_ch (x y z : Word) {i : Nat} (hi : i < 32) :
    (ch x y z).getLsbD i = if x.getLsbD i then y.getLsbD i else z.getLsbD i := by
  simp only [ch, BitVec.getLsbD_xor, BitVec.getLsbD_and, BitVec.getLsbD_not, hi, decide_true, Bool.true_and]
  cases x.getLsbD i <;> simp

theorem getLsbD_maj (x y z : Word) (i : Nat) :
    (maj x y z).getLsbD i =
      ((x.getLsbD i && y.getLsbD i) || (x.getLsbD i && z.getLsbD i) || (y.getLsbD i && z.getLsbD i)) := by
  simp only [maj, BitVec.getLsbD_xor, BitVec.getLsbD_and]
  cases x.getLsbD i <;> cases y.getLsbD i <;> cases z.getLsbD i <;> rfl

/-- Settles O40: shifts are divisions and multiplications, `Ch` and `Maj` act on each bit by itself. -/
theorem shaWordOperations : Obligations.ShaWordOperations := by
  unfold Obligations.ShaWordOperations
  exact ⟨fun x n _ _ => ⟨toNat_shr x n, toNat_rotr x n⟩,
    fun x y z i hi => ⟨getLsbD_ch x y z hi, getLsbD_maj x y z i⟩, fun x => ⟨rfl, rfl, rfl, rfl⟩⟩

/-! The padding -/

theorem padZeros_fills (len : Nat) : (len + 1 + padZeros len + 8) % 64 = 0 := by
  unfold padZeros
  omega

theorem padZeros_least {len k : Nat} (h : k < padZeros len) : (len + 1 + k + 8) % 64 ≠ 0 := by
  unfold padZeros at h
  omega

@[simp] theorem length_padMessage (m : List Byte) :
    (padMessage m).length = m.length + 1 + padZeros m.length + 8 := by
  simp only [padMessage, List.length_append, List.length_replicate, List.length_singleton, length_be64]

/-- The big-endian number that bytes write. -/
theorem foldl_be32 (c acc : Nat) :
    (be32 c).foldl (fun acc b => 256 * acc + b.toNat) acc = 2 ^ 32 * acc + c % 2 ^ 32 := by
  simp only [be32, List.foldl_cons, List.foldl_nil, BitVec.toNat_ofNat]
  omega

theorem foldl_be64 {c : Nat} (h : c < 2 ^ 64) : (be64 c).foldl (fun acc b => 256 * acc + b.toNat) 0 = c := by
  rw [be64, List.foldl_append, foldl_be32, foldl_be32]
  omega

/-! Words from bytes -/

theorem getD_drop {α : Type} (l : List α) (k j : Nat) (d : α) : (l.drop k).getD j d = l.getD (k + j) d := by
  simp

theorem wordsOfBytes_cons (b0 b1 b2 b3 : Byte) (rest : List Byte) :
    wordsOfBytes (b0 :: b1 :: b2 :: b3 :: rest) = (b0 ++ b1 ++ b2 ++ b3) :: wordsOfBytes rest := by
  rw [wordsOfBytes]

/-- A list of bytes is too short for a word, or begins with one. -/
theorem wordsOfBytes_cases (d : List Byte) :
    (d.length < 4 ∧ wordsOfBytes d = []) ∨ ∃ b0 b1 b2 b3 rest, d = b0 :: b1 :: b2 :: b3 :: rest := by
  match d with
  | [] | [_] | [_, _] | [_, _, _] => exact .inl ⟨by simp, by simp [wordsOfBytes]⟩
  | b0 :: b1 :: b2 :: b3 :: rest => exact .inr ⟨b0, b1, b2, b3, rest, rfl⟩

theorem wordsOfBytes_drop (d : List Byte) (k : Nat) : wordsOfBytes (d.drop (4 * k)) = (wordsOfBytes d).drop k := by
  induction k generalizing d with
  | zero => simp
  | succ k ih =>
    obtain ⟨hshort, hnil⟩ | ⟨b0, b1, b2, b3, rest, rfl⟩ := wordsOfBytes_cases d
    · rw [List.drop_eq_nil_of_le (by omega), hnil]
      simp [wordsOfBytes]
    · rw [wordsOfBytes_cons, List.drop_succ_cons, ← ih]
      rfl

theorem wordsOfBytes_take (d : List Byte) (k : Nat) : wordsOfBytes (d.take (4 * k)) = (wordsOfBytes d).take k := by
  induction k generalizing d with
  | zero => simp [wordsOfBytes]
  | succ k ih =>
    obtain ⟨hshort, hnil⟩ | ⟨b0, b1, b2, b3, rest, rfl⟩ := wordsOfBytes_cases d
    · rw [List.take_of_length_le (by omega), hnil, List.take_nil]
    · rw [wordsOfBytes_cons, List.take_succ_cons, ← ih, ← wordsOfBytes_cons]
      rfl

theorem length_wordsOfBytes (d : List Byte) : (wordsOfBytes d).length = d.length / 4 := by
  induction d using wordsOfBytes.induct with
  | case1 b0 b1 b2 b3 rest ih =>
    rw [wordsOfBytes_cons, List.length_cons, ih]
    simp only [List.length_cons]
    omega
  | case2 d h =>
    obtain ⟨hshort, hnil⟩ | ⟨b0, b1, b2, b3, rest, rfl⟩ := wordsOfBytes_cases d
    · rw [hnil, List.length_nil]
      omega
    · exact absurd rfl (h b0 b1 b2 b3 rest)

theorem toNat_wordsOfBytes_getD {d : List Byte} {k : Nat} (hk : k < d.length / 4) :
    ((wordsOfBytes d).getD k 0).toNat =
      (d.getD (4 * k) 0).toNat * 2 ^ 24 + (d.getD (4 * k + 1) 0).toNat * 2 ^ 16 +
        (d.getD (4 * k + 2) 0).toNat * 2 ^ 8 + (d.getD (4 * k + 3) 0).toNat := by
  obtain ⟨hshort, -⟩ | ⟨b0, b1, b2, b3, rest, hd⟩ := wordsOfBytes_cases (d.drop (4 * k))
  · rw [List.length_drop] at hshort
    omega
  · have hword : (wordsOfBytes d).getD k 0 = b0 ++ b1 ++ b2 ++ b3 := by
      rw [← Nat.add_zero k, ← getD_drop, ← wordsOfBytes_drop, hd, wordsOfBytes_cons]
      rfl
    have hbyte (j : Nat) : d.getD (4 * k + j) 0 = (b0 :: b1 :: b2 :: b3 :: rest).getD j 0 := by
      rw [← hd, getD_drop]
    have hfirst : d.getD (4 * k) 0 = b0 := hbyte 0
    rw [hword, hfirst, hbyte 1, hbyte 2, hbyte 3]
    simp only [toNat_append_eq_add, List.getD_cons_zero, List.getD_cons_succ]
    omega

/-! Blocks from words -/

theorem length_blocksOf (ws : List Word) : (blocksOf ws).length = ws.length / 16 := by simp [blocksOf]

theorem getElem_blocksOf (ws : List Word) {i : Nat} (hi : i < (blocksOf ws).length) :
    (blocksOf ws)[i] = (ws.drop (16 * i)).take 16 := by
  simp [blocksOf]

theorem blocksOf_getD_getD {ws : List Word} {i j : Nat} (hi : i < ws.length / 16) (hj : j < 16) :
    ((blocksOf ws).getD i []).getD j 0 = ws.getD (16 * i + j) 0 := by
  have hi' : i < (blocksOf ws).length := by rwa [length_blocksOf]
  rw [List.getD_eq_getElem _ _ hi', getElem_blocksOf]
  simp [hj]

/-- Settles O39: the padding by arithmetic modulo 64, words and blocks by the positions they are read from. -/
theorem shaPaddingAndWords : Obligations.ShaPaddingAndWords := by
  unfold Obligations.ShaPaddingAndWords
  refine ⟨fun m hm => ⟨padZeros m.length, rfl, padZeros_fills _, ?_, length_be64 _, fun _ => padZeros_least,
      foldl_be64 hm⟩,
    fun d _ => ⟨length_wordsOfBytes d, fun _ => toNat_wordsOfBytes_getD⟩,
    fun ws _ => ⟨length_blocksOf ws, fun _ hi _ hj => blocksOf_getD_getD hi hj⟩⟩
  rw [length_padMessage, padZeros_fills]

end Sys2Proof.Machine
end

section
/-! SUPPORT. The message schedule of SHA-256 (40_bitvector_and_hash.md R93), its compression and digest (R94, R95), and
its constants (R92). -/

namespace Sys2Proof.Machine

/-! The schedule, kept with its latest word first -/

/-- The word that the schedule adds to the words it has, the latest first (R93). -/
def nextWord (w : List Word) : Word := ssig1 (w.getD 1 0) + w.getD 6 0 + ssig0 (w.getD 14 0) + w.getD 15 0

theorem extendSchedule_succ (n : Nat) (w : List Word) :
    extendSchedule (n + 1) w = extendSchedule n (nextWord w :: w) := by
  rw [extendSchedule, nextWord]

theorem length_extendSchedule (n : Nat) (w : List Word) : (extendSchedule n w).length = n + w.length := by
  induction n generalizing w with
  | zero => rw [extendSchedule, Nat.zero_add]
  | succ n ih =>
    rw [extendSchedule_succ, ih, List.length_cons]
    omega

/-- The words the schedule began with stay its last ones. -/
theorem extendSchedule_drop (n : Nat) (w : List Word) : (extendSchedule n w).drop n = w := by
  induction n generalizing w with
  | zero => rw [extendSchedule, List.drop_zero]
  | succ n ih => rw [extendSchedule_succ, ← List.drop_drop, ih, List.drop_one, List.tail_cons]

/-- Each added word is the next word of those after it. -/
theorem extendSchedule_getD {n j : Nat} (hj : j < n) (w : List Word) :
    (extendSchedule n w).getD j 0 = nextWord ((extendSchedule n w).drop (j + 1)) := by
  induction n generalizing w with
  | zero => omega
  | succ n ih =>
    rcases Nat.lt_or_eq_of_le (Nat.le_of_lt_succ hj) with h | rfl
    · rw [extendSchedule_succ, ih h]
    · have hadded : (extendSchedule (j + 1) w).drop j = nextWord w :: w := by
        rw [extendSchedule_succ, extendSchedule_drop]
      rw [extendSchedule_drop]
      exact (getD_drop _ j 0 0).symm.trans (by rw [hadded, List.getD_cons_zero])

section Schedule
variable {m : List Word} (hm : m.length = 16)
include hm

theorem length_schedule : (schedule m).length = 64 := by
  rw [schedule, List.length_reverse, length_extendSchedule, List.length_reverse, hm]

theorem schedule_getD {t : Nat} (ht : t < 64) :
    (schedule m).getD t 0 = (extendSchedule 48 m.reverse).getD (63 - t) 0 := by
  have hlen : (extendSchedule 48 m.reverse).length = 64 := by rw [length_extendSchedule, List.length_reverse, hm]
  rw [schedule, List.getD_reverse _ (by omega), hlen]

theorem schedule_getD_of_lt {t : Nat} (ht : t < 16) : (schedule m).getD t 0 = m.getD t 0 := by
  rw [schedule_getD hm (by omega), show 63 - t = 48 + (15 - t) by omega, ← getD_drop, extendSchedule_drop,
    List.getD_reverse _ (by omega)]
  congr 1
  omega

theorem schedule_getD_of_le {t : Nat} (hlow : 16 ≤ t) (hhigh : t < 64) :
    (schedule m).getD t 0 =
      ssig1 ((schedule m).getD (t - 2) 0) + (schedule m).getD (t - 7) 0 + ssig0 ((schedule m).getD (t - 15) 0) +
        (schedule m).getD (t - 16) 0 := by
  have earlier (d : Nat) (hd : 1 ≤ d ∧ d ≤ 16) :
      ((extendSchedule 48 m.reverse).drop (63 - t + 1)).getD (d - 1) 0 = (schedule m).getD (t - d) 0 := by
    rw [getD_drop, schedule_getD hm (by omega)]
    congr 1
    omega
  rw [schedule_getD hm hhigh, extendSchedule_getD (by omega), nextWord, ← earlier 2 (by decide),
    ← earlier 7 (by decide), ← earlier 15 (by decide), ← earlier 16 (by decide)]

end Schedule

/-- Settles O42: the model keeps the latest word first, so that word t is at position 63 - t of 64. -/
theorem shaMessageSchedule : Obligations.ShaMessageSchedule := by
  unfold Obligations.ShaMessageSchedule
  exact fun m hm => ⟨length_schedule hm, fun _ => schedule_getD_of_lt hm, fun _ => schedule_getD_of_le hm⟩

/-! The compression -/

/-- The value of a fold after the first `i` elements of the list. -/
def foldRun {α β : Type} (f : β → α → β) (b : β) (l : List α) (i : Nat) : β := (l.take i).foldl f b

section FoldRun
variable {α β : Type} (f : β → α → β) (b : β) (l : List α)

theorem foldRun_zero : foldRun f b l 0 = b := rfl

theorem foldRun_succ {i : Nat} (h : i < l.length) : foldRun f b l (i + 1) = f (foldRun f b l i) l[i] := by
  rw [foldRun, List.take_add_one, List.getElem?_eq_getElem h, List.foldl_append]
  rfl

theorem foldRun_length : foldRun f b l l.length = l.foldl f b := by rw [foldRun, List.take_length]

end FoldRun

theorem length_roundConstants : roundConstants.length = 64 := rfl

/-- The rounds of one block, each with its constant and its word of the schedule (R94). -/
theorem exists_run_of_compress (hv : HashValue) {m : List Word} (hm : m.length = 16) :
    ∃ v : Nat → HashValue, v 0 = hv ∧
      (∀ t, t < 64 → v (t + 1) = compressStep (v t) (roundConstants.getD t 0, (schedule m).getD t 0)) ∧
      compress hv m = ⟨hv.h0 + (v 64).h0, hv.h1 + (v 64).h1, hv.h2 + (v 64).h2, hv.h3 + (v 64).h3, hv.h4 + (v 64).h4,
        hv.h5 + (v 64).h5, hv.h6 + (v 64).h6, hv.h7 + (v 64).h7⟩ := by
  have hW := length_schedule hm
  have hlen : (roundConstants.zip (schedule m)).length = 64 := by
    rw [List.length_zip, length_roundConstants, hW, Nat.min_self]
  have hlast := foldRun_length compressStep hv (roundConstants.zip (schedule m))
  rw [hlen] at hlast
  refine ⟨foldRun compressStep hv (roundConstants.zip (schedule m)), foldRun_zero _ _ _, fun t ht => ?_,
    by rw [hlast, compress]⟩
  rw [foldRun_succ _ _ _ (by omega), List.getElem_zip, List.getD_eq_getElem _ _ (by rwa [length_roundConstants]),
    List.getD_eq_getElem _ _ (by rwa [hW])]

/-- Block i of the words of some bytes is the words of their i-th 64 bytes. -/
theorem getElem_blocksOf_wordsOfBytes (d : List Byte) {i : Nat} (hi : i < (blocksOf (wordsOfBytes d)).length) :
    (blocksOf (wordsOfBytes d))[i] = wordsOfBytes ((d.drop (64 * i)).take 64) := by
  rw [getElem_blocksOf, ← wordsOfBytes_drop, ← wordsOfBytes_take, ← Nat.mul_assoc]

theorem HashValue.digest_eq (h : HashValue) :
    h.digest = be32 h.h0.toNat ++ be32 h.h1.toNat ++ be32 h.h2.toNat ++ be32 h.h3.toNat ++ be32 h.h4.toNat ++
      be32 h.h5.toNat ++ be32 h.h6.toNat ++ be32 h.h7.toNat := rfl

/-- The hash values of a message, one for each block of the padded message (R94, R95). -/
theorem exists_run_of_sha256 (m : List Byte) :
    ∃ v : Nat → HashValue, v 0 = initialHash ∧
      (∀ i, i < (padMessage m).length / 64 →
        v (i + 1) = compress (v i) (wordsOfBytes (((padMessage m).drop (64 * i)).take 64))) ∧
      sha256 m = (v ((padMessage m).length / 64)).digest := by
  have hlen : (blocksOf (wordsOfBytes (padMessage m))).length = (padMessage m).length / 64 := by
    rw [length_blocksOf, length_wordsOfBytes, Nat.div_div_eq_div_mul]
  refine ⟨foldRun compress initialHash (blocksOf (wordsOfBytes (padMessage m))), foldRun_zero _ _ _, fun i hi => ?_,
    by rw [← hlen, foldRun_length, sha256]⟩
  rw [foldRun_succ _ _ _ (hlen ▸ hi), getElem_blocksOf_wordsOfBytes]

/-- Settles O43: the steps of a block and the blocks of a message are two folds, each with its run. -/
theorem shaCompression : Obligations.ShaCompression := by
  unfold Obligations.ShaCompression
  refine ⟨fun hv m hm => ?_, fun m _ => ?_⟩
  · obtain ⟨v, hfirst, hstep, hlast⟩ := exists_run_of_compress hv hm
    refine ⟨v, hfirst, fun t ht => ?_, ?_⟩
    · rw [hstep t ht]
      exact ⟨rfl, rfl, rfl, rfl, rfl, rfl, rfl, rfl⟩
    · rw [hlast]
      exact ⟨rfl, rfl, rfl, rfl, rfl, rfl, rfl, rfl⟩
  · obtain ⟨v, hfirst, hstep, hlast⟩ := exists_run_of_sha256 m
    exact ⟨v, hfirst, hstep, _, rfl, hlast.trans (HashValue.digest_eq _)⟩

/-! The constants and the check values -/

/-- Settles O41: the 72 constants against the primes below 312, by evaluation. -/
theorem shaConstantsAreRootsOfPrimes : Obligations.ShaConstantsAreRootsOfPrimes := by
  unfold Obligations.ShaConstantsAreRootsOfPrimes
  decide +kernel

/-- Settles O44: the digest's length for every message, the three digests by evaluation. -/
theorem shaCheckValues : Obligations.ShaCheckValues := by
  unfold Obligations.ShaCheckValues
  exact ⟨length_sha256, by decide +kernel, by decide +kernel, by decide +kernel⟩

end Sys2Proof.Machine
end

section
/-! SUPPORT. The expansion bit by bit (40_bitvector_and_hash.md R96, R97), the command EXPAND (R98), and GEN and
`deriveSubkey` at the function level (R86, 41_keygen_and_subkey.md R105, R108). -/

namespace Sys2Proof.Machine

/-! The bits of an expansion -/

theorem be32_eq (c : Nat) :
    be32 c =
      [BitVec.ofNat 8 (c / 2 ^ 24), BitVec.ofNat 8 (c / 2 ^ 16), BitVec.ofNat 8 (c / 2 ^ 8), BitVec.ofNat 8 c] := by
  have low (n : Nat) : BitVec.ofNat 8 (n % 256) = BitVec.ofNat 8 n := BitVec.eq_of_toNat_eq (by simp)
  simp only [be32, low]

theorem digestStream_succ (x : List Byte) (n : Nat) :
    digestStream x (n + 1) = digestStream x n ++ sha256 (x ++ be32 n) := by
  simp [digestStream, List.range_succ]

/-- Byte j of digest c stands at 32c + j of the stream. -/
theorem getD_digestStream (x : List Byte) {n c j : Nat} (hc : c < n) (hj : j < 32) :
    (digestStream x n).getD (32 * c + j) 0 = (sha256 (x ++ be32 c)).getD j 0 := by
  induction n with
  | zero => omega
  | succ n ih =>
    rw [digestStream_succ]
    rcases Nat.lt_or_eq_of_le (Nat.le_of_lt_succ hc) with h | rfl
    · rw [List.getD_append _ _ _ _ (by rw [length_digestStream]; omega), ih h]
    · rw [List.getD_append_right _ _ _ _ (by rw [length_digestStream]; omega), length_digestStream,
        Nat.add_sub_cancel_left]

/-- Bit i of an expansion, which does not depend on the expansion's length (R96). -/
theorem getElem?_expand (x : List Byte) {n i : Nat} (hi : i < n) :
    (expand x n)[i]? = some (((sha256 (x ++ be32 (i / 256))).getD (i % 256 / 8) 0).getLsbD (7 - i % 8)) := by
  have hbyte : i / 8 = 32 * (i / 256) + i % 256 / 8 := by omega
  rw [expand, getElem?_unser _ hi, hbyte, getD_digestStream x (by simp only [Config.hlen]; omega) (by omega)]

/-- Settles O45: bit i of the expansion is bit i mod 256 of digest i div 256 of the stream. -/
theorem expandTakesDigestBitsInCounterOrder : Obligations.ExpandTakesDigestBitsInCounterOrder := by
  unfold Obligations.ExpandTakesDigestBitsInCounterOrder
  refine fun x n => ⟨fun hn => by rw [funcExpand, if_pos hn], fun hn => ?_⟩
  refine ⟨expand x n.toNat, by rw [funcExpand, if_neg (by omega)], length_expand x _, fun i hi _ => ?_⟩
  rw [getElem?_expand x hi, be32_eq]

theorem expand_eq_slice (x : List Byte) {n1 n2 : Nat} (h : n1 ≤ n2) : expand x n1 = slice (expand x n2) 0 n1 := by
  apply List.ext_getElem?
  intro i
  rw [slice, List.drop_zero, Nat.sub_zero, List.getElem?_take]
  split
  next hi => rw [getElem?_expand x hi, getElem?_expand x (hi.trans_le h)]
  next hi => exact List.getElem?_eq_none (by rw [length_expand]; omega)

/-- Settles O46: the bits of an expansion do not depend on its length, and a key expands its serialised seed. -/
theorem expansionPrefixLaw : Obligations.ExpansionPrefixLaw := by
  unfold Obligations.ExpansionPrefixLaw
  refine ⟨fun x _ _ => expand_eq_slice x, fun s t hser hlen => ?_,
    fun x => List.eq_nil_of_length_eq_zero (length_expand x 0)⟩
  rw [genKey, genKey, hser]
  exact expand_eq_slice _ (Nat.mul_le_mul_left _ hlen)

/-! The command EXPAND -/

theorem exec_expand_of_over {s : State} (h : s.lmax < s.alen.toNat ∨ s.lmax < s.nlen.toNat) :
    exec .expand s = .next (s.fail .capacityExceeded) := by
  rw [exec_expand, expandCheck_eq, if_pos h, finish]

theorem exec_expand_of_fits {s : State} (ha : s.alen.toNat ≤ s.lmax) (hn : s.nlen.toNat ≤ s.lmax) :
    exec .expand s = .next (s.writeResult (expand (ser s.aSeq) s.nlen.toNat)) := by
  rw [exec_expand, expandCheck_eq, if_neg (by omega), finish]

theorem exec_gen_of_fits {s : State} (ha : 1 ≤ s.alen.toNat) (hkey : 4 * s.alen.toNat ≤ s.lmax) :
    exec .gen s = .next (s.writeResult (genKey s.aSeq)) := by
  rw [exec_gen, genCheck_eq, if_neg (by omega), if_neg (by omega), finish]

theorem genKey_aSeq (s : State) : genKey s.aSeq = expand (ser s.aSeq) (4 * s.alen.toNat) := by
  rw [genKey, length_aSeq]

/-- Settles O26: EXPAND's one check, its value, and that GEN's value is an expansion to four times the length. -/
theorem expandWritesExpansion : Obligations.ExpandWritesExpansion := by
  unfold Obligations.ExpandWritesExpansion
  refine fun s => ⟨fun h => ⟨_, exec_expand_of_over h, failed_fail s .capacityExceeded⟩, fun ha hn => ?_,
    fun ha hlen hn => ?_⟩
  · refine ⟨_, exec_expand_of_fits ha hn, ?_, completed_writeResult (by rwa [length_expand])⟩
    rw [State.writeResult_rlen, length_expand, BitVec.ofNat_toNat, BitVec.setWidth_eq]
  · refine ⟨_, exec_expand_of_fits (by omega) hn, ?_⟩
    rw [exec_gen_of_fits ha (hlen ▸ hn), genKey_aSeq, hlen]

/-! The function level -/

/-- A sequence of integers is one of bits, or `check_bits` refuses it (R86). -/
theorem checkBits_cases (seed : List Int) :
    (∃ bits, seed = toInts bits) ∨ checkBits seed = .error .invalidInput := by
  induction seed with
  | nil => exact .inl ⟨[], rfl⟩
  | cons x rest ih =>
    obtain ⟨bits, rfl⟩ | herror := ih
    · by_cases h0 : x = 0
      · exact .inl ⟨false :: bits, by rw [h0]; rfl⟩
      · by_cases h1 : x = 1
        · exact .inl ⟨true :: bits, by rw [h1]; rfl⟩
        · exact .inr (by simp [checkBits, h0, h1])
    · exact .inr (by rw [checkBits, herror])

theorem eq_zero_or_one_of_mem_toInts {bits : BitSeq} {x : Int} (h : x ∈ toInts bits) : x = 0 ∨ x = 1 := by
  obtain ⟨b, -, rfl⟩ := List.mem_map.mp h
  cases b
  · exact .inl rfl
  · exact .inr rfl

theorem checkBits_of_not_bit {seed : List Int} (h : ∃ x, x ∈ seed ∧ x ≠ 0 ∧ x ≠ 1) :
    checkBits seed = .error .invalidInput := by
  obtain ⟨x, hx, h0, h1⟩ := h
  refine (checkBits_cases seed).resolve_left ?_
  rintro ⟨bits, rfl⟩
  rcases eq_zero_or_one_of_mem_toInts hx with hx | hx
  · exact h0 hx
  · exact h1 hx

theorem funcGen_of_bits {bits : BitSeq} (h : bits ≠ []) :
    funcGen (toInts bits) = .ok (expand (ser bits) (4 * bits.length)) := by
  rw [funcGen, checkBits_toInts]
  exact if_neg (by simpa using h)

/-- Settles O56: a sequence that passes `check_bits` is one of bits; a round index is defined exactly in 0..255. -/
theorem genAndDeriveAtFunctionLevel : Obligations.GenAndDeriveAtFunctionLevel := by
  unfold Obligations.GenAndDeriveAtFunctionLevel
  refine ⟨fun seed => ⟨fun h => ?_, ?_, ?_⟩, fun key r => ⟨fun hlow hhigh => ?_, fun h => ?_⟩⟩
  · rw [funcGen, checkBits_of_not_bit h]
  · rintro rfl
    rfl
  · rintro bits hbits rfl
    exact funcGen_of_bits hbits
  · rw [funcDerive, if_pos ⟨hlow, hhigh⟩, deriveSubkey]
  · rw [funcDerive, if_neg (by omega)]

end Sys2Proof.Machine
end

section
/-! SUPPORT. The bytes of a sequence followed by a byte's bits (40_bitvector_and_hash.md R85, R87, R88), the subkey as an
expansion (41_keygen_and_subkey.md R111), and the commands GEN and DERIVE (R106, R109). -/

namespace Sys2Proof.Machine

/-! The bytes of a concatenation -/

theorem bitOrZero_append_left {s : BitSeq} (t : BitSeq) {i : Nat} (h : i < s.length) :
    bitOrZero (s ++ t) i = bitOrZero s i := List.getD_append _ _ _ _ h

theorem bitOrZero_append_length_add (s t : BitSeq) (i : Nat) : bitOrZero (s ++ t) (s.length + i) = bitOrZero t i := by
  rw [bitOrZero, List.getD_append_right _ _ _ _ (Nat.le_add_right _ _), Nat.add_sub_cancel_left, bitOrZero]

theorem bitOrZero_unser (d : List Byte) {n i : Nat} (h : i < n) :
    bitOrZero (unser d n) i = (d.getD (i / 8) 0).getLsbD (7 - i % 8) := by
  rw [bitOrZero, List.getD_eq_getElem?_getD, getElem?_unser d h, Option.getD_some]

/-- Byte strings of one length are equal when their bits are, counted from each byte's most significant one (R87). -/
theorem eq_of_byte_bits {d e : List Byte} (hlen : d.length = e.length)
    (hbit : ∀ k, k < d.length → ∀ j, j < 8 → (d.getD k 0).getLsbD (7 - j) = (e.getD k 0).getLsbD (7 - j)) : d = e := by
  refine List.ext_getElem hlen fun k hd he => BitVec.eq_of_getLsbD_eq fun i hi => ?_
  have h := hbit k hd (7 - i) (by omega)
  rwa [List.getD_eq_getElem _ _ hd, List.getD_eq_getElem _ _ he, show 7 - (7 - i) = i by omega] at h

/-- `ser` inverts `unser` on whole bytes. -/
theorem ser_unser (d : List Byte) : ser (unser d (8 * d.length)) = d := by
  have hlen : (ser (unser d (8 * d.length))).length = d.length := by rw [length_ser, length_unser]; omega
  refine eq_of_byte_bits hlen fun k hk j hj => ?_
  rw [getLsbD_ser (by rwa [length_ser] at hk) hj, bitOrZero_unser d (by omega), show (8 * k + j) / 8 = k by omega,
    show (8 * k + j) % 8 = j by omega]

/-- Whole bytes in front keep the byte boundaries of what follows. -/
theorem ser_append {s : BitSeq} (t : BitSeq) (hs : s.length % 8 = 0) : ser (s ++ t) = ser s ++ ser t := by
  have hlen : (ser s).length = s.length / 8 := by rw [length_ser]; omega
  have htotal : (ser (s ++ t)).length = s.length / 8 + (t.length + 7) / 8 := by
    rw [length_ser, List.length_append]; omega
  refine eq_of_byte_bits (by rw [htotal, List.length_append, hlen, length_ser]) fun k hk j hj => ?_
  rw [getLsbD_ser (by rwa [length_ser] at hk) hj]
  rw [htotal] at hk
  rcases Nat.lt_or_ge k (s.length / 8) with hfront | hback
  · rw [List.getD_append _ _ _ _ (hlen ▸ hfront), getLsbD_ser (by omega) hj, bitOrZero_append_left t (by omega)]
  · rw [List.getD_append_right _ _ _ _ (hlen ▸ hback), hlen, getLsbD_ser (by omega) hj,
      show 8 * k + j = s.length + (8 * (k - s.length / 8) + j) by omega, bitOrZero_append_length_add]

/-- Settles O47: the bits of r are `unser` of its one byte, and a key of whole bytes serialises apart from them. -/
theorem deriveIsExpandOfKeyAndIndex : Obligations.DeriveIsExpandOfKeyAndIndex := by
  unfold Obligations.DeriveIsExpandOfKeyAndIndex
  intro key r hkey
  have hbits : (List.range 8).map (fun j => r.getLsbD (7 - j)) = unser [r] (8 * [r].length) := rfl
  rw [hbits, concatSeq, ser_append _ hkey, ser_unser, deriveSubkey]

/-! The command GEN -/

theorem exec_gen_of_over {s : State} (h : s.lmax < 4 * s.alen.toNat) :
    exec .gen s = .next (s.fail .capacityExceeded) := by
  rw [exec_gen, genCheck_eq, if_pos h, finish]

theorem exec_gen_of_empty {s : State} (h : s.alen.toNat = 0) : exec .gen s = .next (s.fail .invalidInput) := by
  rw [exec_gen, genCheck_eq, if_neg (by omega), if_pos h, finish]

/-- Settles O27: GEN's two checks, and its key, which fits R because the first check bounds its length. -/
theorem genWritesKey : Obligations.GenWritesKey := by
  unfold Obligations.GenWritesKey
  refine fun s => ⟨fun h => ⟨_, exec_gen_of_over h, failed_fail s .capacityExceeded⟩,
    fun h => ⟨_, exec_gen_of_empty h, failed_fail s .invalidInput⟩, fun ha hkey => ?_⟩
  have hdone : Completed s (expand (ser s.aSeq) (4 * s.alen.toNat)) (s.writeResult (genKey s.aSeq)) := by
    rw [genKey_aSeq]
    exact completed_writeResult (by rwa [length_expand])
  exact ⟨_, exec_gen_of_fits ha hkey, by rw [hdone.rlen, length_expand], hdone⟩

/-! The command DERIVE -/

theorem deriveSubkey_aSeq (s : State) (r : Byte) : deriveSubkey s.aSeq r = expand (ser s.aSeq ++ [r]) s.alen.toNat := by
  rw [deriveSubkey, length_aSeq]

section Derive
variable {s : State} {r : Nat} (hr : r ≤ 255)
include hr

theorem exec_derive_of_over (h : s.lmax < s.alen.toNat) : exec (.derive r) s = .next (s.fail .capacityExceeded) := by
  rw [exec_derive hr, deriveCheck_eq, if_pos h, finish]

theorem exec_derive_of_fits (h : s.alen.toNat ≤ s.lmax) :
    exec (.derive r) s = .next (s.writeResult (deriveSubkey s.aSeq (BitVec.ofNat 8 r))) := by
  rw [exec_derive hr, deriveCheck_eq, if_neg (by omega), finish]

end Derive

/-- Settles O28: DERIVE's one check, its subkey of A's length, and the index that has no encoding. -/
theorem deriveWritesSubkey : Obligations.DeriveWritesSubkey := by
  unfold Obligations.DeriveWritesSubkey
  refine fun s r => ⟨fun hr h => ⟨_, exec_derive_of_over hr h, failed_fail s .capacityExceeded⟩, fun hr ha => ?_,
    fun hr => exec_derive_undefined (by omega) s⟩
  have hdone : Completed s (expand (ser s.aSeq ++ [BitVec.ofNat 8 r]) s.alen.toNat)
      (s.writeResult (deriveSubkey s.aSeq (BitVec.ofNat 8 r))) := by
    rw [deriveSubkey_aSeq]
    exact completed_writeResult (by rwa [length_expand])
  exact ⟨_, exec_derive_of_fits hr ha, BitVec.eq_of_toNat_eq (by rw [hdone.rlen, length_expand]), hdone⟩

end Sys2Proof.Machine
end

section
/-! SUPPORT. The S-box and its inverse table (42_sbox.md R115, R116), the substitution group by group (R117 to R119), and the
commands on B alone, SUB and UNSUB among them (R121, R122). -/

namespace Sys2Proof.Machine

/-! The tables -/

/-- A bijective table of sixteen codes takes every value (42_sbox.md R120). -/
theorem exists_subCode_eq (b : SBox) (y : Code) : ∃ x, subCode b x = y :=
  (Finite.injective_iff_surjective (f := subCode b)).mp b.bijective y

/-- The search of R116 finds an x for every y. -/
theorem subCode_unsubCode (b : SBox) (y : Code) : subCode b (unsubCode b y) = y := by
  obtain ⟨x, hx⟩ := exists_subCode_eq b y
  have hfound : ((List.finRange 16).find? fun x => b.table.get x == y).isSome :=
    List.find?_isSome.mpr ⟨x, List.mem_finRange x, beq_iff_eq.mpr hx⟩
  obtain ⟨x', hx'⟩ := Option.isSome_iff_exists.mp hfound
  rw [unsubCode, hx', Option.getD_some]
  have hmeets : (b.table.get x' == y) = true := List.find?_some (p := fun x => b.table.get x == y) hx'
  exact beq_iff_eq.mp hmeets

theorem unsubCode_subCode (b : SBox) (x : Code) : unsubCode b (subCode b x) = x :=
  b.bijective _ _ (subCode_unsubCode b (subCode b x))

/-- Settles O48: the values by evaluation; that they are onto, by the inverse table. -/
theorem sBoxOfThisHardware : Obligations.SBoxOfThisHardware := by
  unfold Obligations.SBoxOfThisHardware
  exact ⟨by decide, fun y => ⟨unsubCode hardware.sbox y, subCode_unsubCode _ y⟩, by decide, by decide⟩

/-- Settles O49: both directions for every bijective table, and this hardware's values by evaluation. -/
theorem inverseSBoxUndoesSBox : Obligations.InverseSBoxUndoesSBox := by
  unfold Obligations.InverseSBoxUndoesSBox
  exact ⟨fun b x => ⟨unsubCode_subCode b x, subCode_unsubCode b x⟩, by decide⟩

/-! Groups and their codes -/

theorem val_groupCode (g0 g1 g2 g3 : Bool) :
    (groupCode g0 g1 g2 g3).val = 8 * g0.toNat + 4 * g1.toNat + 2 * g2.toNat + g3.toNat := by
  have h0 := g0.toNat_le
  have h1 := g1.toNat_le
  have h2 := g2.toNat_le
  have h3 := g3.toNat_le
  exact Nat.mod_eq_of_lt (by omega)

theorem codeGroup_groupCode : ∀ g0 g1 g2 g3 : Bool, codeGroup (groupCode g0 g1 g2 g3) = [g0, g1, g2, g3] := by decide

theorem exists_group_of_code : ∀ y : Code, ∃ g0 g1 g2 g3 : Bool,
    codeGroup y = [g0, g1, g2, g3] ∧ groupCode g0 g1 g2 g3 = y := by
  decide

theorem getElem?_codeGroup : ∀ (y : Code) (j : Nat), j < 4 →
    (codeGroup y)[j]? = some (decide (y.val / 2 ^ (3 - j) % 2 = 1)) := by
  decide

/-! The data path group by group -/

/-- Induction over a sequence of whole groups. -/
theorem wholeGroups_induction {motive : (v : BitSeq) → v.length % 4 = 0 → Prop} (nil : motive [] rfl)
    (group : ∀ g0 g1 g2 g3 rest (h : rest.length % 4 = 0), motive rest h →
      motive (g0 :: g1 :: g2 :: g3 :: rest) ((Nat.add_mod_right _ 4).trans h)) :
    ∀ v h, motive v h
  | [], _ => nil
  | g0 :: g1 :: g2 :: g3 :: rest, h =>
    have hrest : rest.length % 4 = 0 := (Nat.add_mod_right rest.length 4).symm.trans h
    group g0 g1 g2 g3 rest hrest (wholeGroups_induction nil group rest hrest)

theorem mapGroups_cons (f : Code → Code) (g0 g1 g2 g3 : Bool) (rest : BitSeq) :
    mapGroups f (g0 :: g1 :: g2 :: g3 :: rest) = codeGroup (f (groupCode g0 g1 g2 g3)) ++ mapGroups f rest := by
  rw [mapGroups]

theorem mapGroups_codeGroup_append (f : Code → Code) (y : Code) (rest : BitSeq) :
    mapGroups f (codeGroup y ++ rest) = codeGroup (f y) ++ mapGroups f rest := by
  obtain ⟨g0, g1, g2, g3, hgroup, hcode⟩ := exists_group_of_code y
  rw [hgroup, ← hcode]
  exact mapGroups_cons f g0 g1 g2 g3 rest

theorem mapGroups_mapGroups_cancel {f f' : Code → Code} (hinv : ∀ x, f' (f x) = x) {data : BitSeq}
    (h : data.length % 4 = 0) : mapGroups f' (mapGroups f data) = data := by
  induction data, h using wholeGroups_induction with
  | nil => rfl
  | group g0 g1 g2 g3 rest h ih =>
    rw [mapGroups_cons, mapGroups_codeGroup_append, hinv, codeGroup_groupCode, ih]
    rfl

/-- The code of group g of a sequence (42_sbox.md R117). -/
def codeAt (data : BitSeq) (g : Nat) : Code :=
  groupCode (bitOrZero data (4 * g)) (bitOrZero data (4 * g + 1)) (bitOrZero data (4 * g + 2)) (bitOrZero data (4 * g + 3))

theorem getElem?_mapGroups (f : Code → Code) {data : BitSeq} (h : data.length % 4 = 0) {g j : Nat}
    (hg : g < data.length / 4) (hj : j < 4) : (mapGroups f data)[4 * g + j]? = (codeGroup (f (codeAt data g)))[j]? := by
  induction data, h using wholeGroups_induction generalizing g with
  | nil => exact absurd hg (Nat.not_lt_zero g)
  | group g0 g1 g2 g3 rest h ih =>
    rw [mapGroups_cons]
    cases g with
    | zero =>
      rw [Nat.mul_zero, Nat.zero_add, List.getElem?_append_left (by rwa [length_codeGroup])]
      rfl
    | succ g =>
      have hg' : g < rest.length / 4 := by
        simp only [List.length_cons] at hg
        omega
      rw [List.getElem?_append_right (by rw [length_codeGroup]; omega), length_codeGroup,
        show 4 * (g + 1) + j - 4 = 4 * g + j by omega, ih hg']
      rfl

theorem length_substitute_of_wholeGroups (c : Config) {v : BitSeq} (h : v.length % 4 = 0) :
    (substitute c v).length = v.length := by
  rw [length_substitute]
  omega

theorem length_unsubstitute_of_wholeGroups (c : Config) {v : BitSeq} (h : v.length % 4 = 0) :
    (unsubstitute c v).length = v.length := by
  rw [length_unsubstitute]
  omega

/-- Settles O50: the code of group g is read from g's elements alone, and the new group is that of its image. -/
theorem substituteReplacesEveryGroup : Obligations.SubstituteReplacesEveryGroup := by
  unfold Obligations.SubstituteReplacesEveryGroup
  refine fun c data h => ⟨length_substitute_of_wholeGroups c h, fun g hg =>
    ⟨codeAt data g, val_groupCode _ _ _ _, fun j hj => ?_⟩⟩
  rw [substitute, getElem?_mapGroups _ h hg hj, getElem?_codeGroup _ j hj]

theorem unsubstitute_substitute (c : Config) {data : BitSeq} (h : data.length % 4 = 0) :
    unsubstitute c (substitute c data) = data :=
  mapGroups_mapGroups_cancel (unsubCode_subCode c.sbox) h

theorem substitute_unsubstitute (c : Config) {data : BitSeq} (h : data.length % 4 = 0) :
    substitute c (unsubstitute c data) = data :=
  mapGroups_mapGroups_cancel (subCode_unsubCode c.sbox) h

/-- Settles O51: tables that undo each other do so on every group, hence on every sequence of whole groups. -/
theorem unsubstituteUndoesSubstitute : Obligations.UnsubstituteUndoesSubstitute := by
  unfold Obligations.UnsubstituteUndoesSubstitute
  exact fun c data h => ⟨unsubstitute_substitute c h, substitute_unsubstitute c h⟩

/-! The commands on B alone -/

section Stream
variable {s : State} (f : BitSeq → BitSeq)

theorem streamCommand_of_over (h : s.lmax < s.blen.toNat) : streamCommand f s = .next (s.fail .capacityExceeded) := by
  rw [streamCommand, streamCheck_eq, if_pos h, finish]

theorem streamCommand_of_invalid (hfit : s.blen.toNat ≤ s.lmax) (h : s.blen.toNat = 0 ∨ s.blen.toNat % 4 ≠ 0) :
    streamCommand f s = .next (s.fail .invalidInput) := by
  rw [streamCommand, streamCheck_eq, if_neg (by omega), if_pos h, finish]

theorem streamCommand_of_valid (hpos : 1 ≤ s.blen.toNat) (hfit : s.blen.toNat ≤ s.lmax) (h4 : s.blen.toNat % 4 = 0) :
    streamCommand f s = .next (s.writeResult (f s.bSeq)) := by
  rw [streamCommand, streamCheck_eq, if_neg (by omega), if_neg (by omega), finish]

end Stream

/-- A command on B alone has the outcomes of R121 if its function keeps the length of whole groups. -/
theorem streamOutcomes_of_exec {i : Instr} {f : BitSeq → BitSeq} (hexec : ∀ s, exec i s = streamCommand f s)
    (hlen : ∀ v : BitSeq, v.length % 4 = 0 → (f v).length = v.length) : StreamOutcomes i f := by
  refine fun s => ⟨fun hover => ⟨_, (hexec s).trans (streamCommand_of_over f hover), failed_fail s .capacityExceeded⟩,
    fun hfit hbad => ⟨_, (hexec s).trans (streamCommand_of_invalid f hfit hbad), failed_fail s .invalidInput⟩,
    fun hpos hfit h4 => ?_⟩
  have hv : (f s.bSeq).length = s.blen.toNat := by rw [hlen _ (by rwa [length_bSeq]), length_bSeq]
  have hdone := completed_writeResult (s := s) (v := f s.bSeq) (by rwa [hv])
  exact ⟨_, (hexec s).trans (streamCommand_of_valid f hpos hfit h4), BitVec.eq_of_toNat_eq (hdone.rlen.trans hv), hdone⟩

/-- MVB after a written result: B's sequence is that result (46_transfer.md R151). -/
theorem bSeq_moveToB_writeResult {s : State} {v : BitSeq} (h : v.length ≤ s.lmax) : (s.writeResult v).moveToB.bSeq = v :=
  State.rSeq_writeResult h

theorem toNat_blen_moveToB_writeResult {s : State} {v : BitSeq} (h : v.length ≤ s.lmax) :
    (s.writeResult v).moveToB.blen.toNat = v.length :=
  State.toNat_writeResult_rlen h

/-- Settles O29: the outcomes of a command on B alone, for SUB. -/
theorem subWritesSubstitution : Obligations.SubWritesSubstitution := by
  unfold Obligations.SubWritesSubstitution
  exact streamOutcomes_of_exec exec_sub fun _ => length_substitute_of_wholeGroups hardware

/-- At the port, UNSUB of a moved result of SUB has that result as its operand, so the law of R119 restores B. -/
theorem exists_run_sub_mvb_unsub {s : State} (hpos : 1 ≤ s.blen.toNat) (hfit : s.blen.toNat ≤ s.lmax)
    (h4 : s.blen.toNat % 4 = 0) :
    ∃ t1 t2 t3, exec .sub s = .next t1 ∧ exec .mvb t1 = .next t2 ∧ exec .unsub t2 = .next t3 ∧ t3.rSeq = s.bSeq := by
  have hgroups : s.bSeq.length % 4 = 0 := by rwa [length_bSeq]
  have hv : (substitute hardware s.bSeq).length = s.blen.toNat :=
    (length_substitute_of_wholeGroups hardware hgroups).trans (length_bSeq s)
  have hvfit : (substitute hardware s.bSeq).length ≤ s.lmax := by rwa [hv]
  have hblen := (toNat_blen_moveToB_writeResult hvfit).trans hv
  refine ⟨_, _, _, (exec_sub s).trans (streamCommand_of_valid _ hpos hfit h4), exec_mvb _,
    (exec_unsub _).trans (streamCommand_of_valid _ (by rwa [hblen]) (by rw [hblen]; exact hfit) (by rwa [hblen])), ?_⟩
  rw [bSeq_moveToB_writeResult hvfit, unsubstitute_substitute hardware hgroups]
  exact State.rSeq_writeResult (by rw [length_bSeq]; exact hfit)

/-- Settles O30: UNSUB's outcomes, and the law at the port. -/
theorem unsubWritesAndUndoesSub : Obligations.UnsubWritesAndUndoesSub := by
  unfold Obligations.UnsubWritesAndUndoesSub
  exact ⟨streamOutcomes_of_exec exec_unsub fun _ => length_unsubstitute_of_wholeGroups hardware,
    fun _ => exists_run_sub_mvb_unsub⟩

end Sys2Proof.Machine
end

section
/-! SUPPORT. The P-box of this hardware (43_pbox.md R125, R126), the bit permutation and its inverse (R128 to R130), and the
commands PERM and UNPERM (R131, R132). -/

namespace Sys2Proof.Machine

/-! The data path bit by bit -/

/-- Element i of a sequence read through an index function: the shape of `permute` and `unpermute`. -/
theorem getElem?_map_range_bitOrZero (data : BitSeq) (f : Nat → Nat) {n i : Nat} (hi : i < n) (hf : f i < data.length) :
    ((List.range n).map fun i => bitOrZero data (f i))[i]? = data[f i]? := by
  simp [bitOrZero, hi, hf]

theorem map_bitOrZero_range (data : BitSeq) : (List.range data.length).map (bitOrZero data) = data := by
  refine eq_of_bitOrZero (by simp) fun i hi => ?_
  rw [List.length_map, List.length_range] at hi
  simp [bitOrZero, hi]

section ValidLength
variable (c : Config) {data : BitSeq} (hpos : 1 ≤ data.length) (h4 : data.length % 4 = 0)
include hpos h4

theorem getElem?_permute {p : Nat} (hp : p < data.length) :
    (permute c data)[p]? = data[c.pbox.inv data.length p]? :=
  getElem?_map_range_bitOrZero data _ hp (c.pbox.inv_lt _ p hpos h4 hp)

theorem getElem?_unpermute {i : Nat} (hi : i < data.length) :
    (unpermute c data)[i]? = data[c.pbox.perm data.length i]? :=
  getElem?_map_range_bitOrZero data _ hi (c.pbox.perm_lt _ i hpos h4 hi)

theorem getElem?_permute_perm {i : Nat} (hi : i < data.length) :
    (permute c data)[c.pbox.perm data.length i]? = data[i]? := by
  rw [getElem?_permute c hpos h4 (c.pbox.perm_lt _ i hpos h4 hi), c.pbox.inv_perm _ i hpos h4 hi]

theorem getElem?_unpermute_inv {p : Nat} (hp : p < data.length) :
    (unpermute c data)[c.pbox.inv data.length p]? = data[p]? := by
  rw [getElem?_unpermute c hpos h4 (c.pbox.inv_lt _ p hpos h4 hp), c.pbox.perm_inv _ p hpos h4 hp]

theorem unpermute_permute : unpermute c (permute c data) = data := by
  have hlen := length_permute c data
  refine List.ext_getElem?' fun i hi => ?_
  have hi : i < data.length := by simpa using hi
  rw [getElem?_unpermute c (by rwa [hlen]) (by rwa [hlen]) (by rwa [hlen]), hlen, getElem?_permute_perm c hpos h4 hi]

theorem permute_unpermute : permute c (unpermute c data) = data := by
  have hlen := length_unpermute c data
  refine List.ext_getElem?' fun p hp => ?_
  have hp : p < data.length := by simpa using hp
  rw [getElem?_permute c (by rwa [hlen]) (by rwa [hlen]) (by rwa [hlen]), hlen, getElem?_unpermute_inv c hpos h4 hp]

end ValidLength

/-! The number of 1 bits -/

theorem eq_of_inv_eq (b : PBox) {L p q : Nat} (hpos : 1 ≤ L) (h4 : L % 4 = 0) (hp : p < L) (hq : q < L)
    (h : b.inv L p = b.inv L q) : p = q := by
  rw [← b.perm_inv L p hpos h4 hp, h, b.perm_inv L q hpos h4 hq]

/-- The inverse family of a P-box lists every place of a valid block exactly once (00_scope.md R10). -/
theorem map_inv_range_perm_range (b : PBox) {L : Nat} (hpos : 1 ≤ L) (h4 : L % 4 = 0) :
    ((List.range L).map (b.inv L)).Perm (List.range L) := by
  have hnodup : ((List.range L).map (b.inv L)).Nodup := by
    refine List.Nodup.map_on (fun p hp q hq => ?_) List.nodup_range
    exact eq_of_inv_eq b hpos h4 (List.mem_range.mp hp) (List.mem_range.mp hq)
  refine (List.perm_ext_iff_of_nodup hnodup List.nodup_range).mpr fun i => ?_
  simp only [List.mem_map, List.mem_range]
  constructor
  · rintro ⟨p, hp, rfl⟩
    exact b.inv_lt L p hpos h4 hp
  · intro hi
    exact ⟨b.perm L i, b.perm_lt L i hpos h4 hi, b.inv_perm L i hpos h4 hi⟩

/-- The result is the data rearranged. -/
theorem permute_perm (c : Config) {data : BitSeq} (hpos : 1 ≤ data.length) (h4 : data.length % 4 = 0) :
    (permute c data).Perm data := by
  have h := (map_inv_range_perm_range c.pbox hpos h4).map (bitOrZero data)
  rwa [List.map_map, map_bitOrZero_range] at h

/-- Settles O53: element p is read at inv_perm_L(p), which undoes perm_L, and a rearrangement keeps every count. -/
theorem permuteMovesEachBitToItsPlace : Obligations.PermuteMovesEachBitToItsPlace := by
  unfold Obligations.PermuteMovesEachBitToItsPlace
  exact fun c data hpos h4 => ⟨length_permute c data, fun _ => getElem?_permute_perm c hpos h4,
    fun _ => getElem?_permute c hpos h4, (permute_perm c hpos h4).count_eq true⟩

/-- Settles O54: element i is read at perm_L(i), and each index function undoes the other. -/
theorem unpermuteUndoesPermute : Obligations.UnpermuteUndoesPermute := by
  unfold Obligations.UnpermuteUndoesPermute
  exact fun c data hpos h4 => ⟨length_unpermute c data, fun _ => getElem?_unpermute_inv c hpos h4,
    fun _ => getElem?_unpermute c hpos h4, unpermute_permute c hpos h4, permute_unpermute c hpos h4⟩

/-! This hardware's tables -/

/-- Settles O52: the closed forms are the configuration's fields, which carry their laws; the tables by evaluation. -/
theorem permutationOfThisHardware : Obligations.PermutationOfThisHardware := by
  unfold Obligations.PermutationOfThisHardware
  refine ⟨fun L i hpos h4 hi => ⟨rfl, rfl, hardware.pbox.inv_perm L i hpos h4 hi, hardware.pbox.perm_inv L i hpos h4 hi⟩,
    ?_, ?_, ?_, ?_, ?_⟩ <;> decide

/-! The commands PERM and UNPERM -/

/-- Settles O31: the outcomes of a command on B alone, for both functions. -/
theorem permAndUnpermWritePermutation : Obligations.PermAndUnpermWritePermutation := by
  unfold Obligations.PermAndUnpermWritePermutation
  exact ⟨streamOutcomes_of_exec exec_perm fun v _ => length_permute hardware v,
    streamOutcomes_of_exec exec_unperm fun v _ => length_unpermute hardware v⟩

end Sys2Proof.Machine
end

section
/-! SUPPORT. The round and its inverse (44_round.md R137), the commands on the pair A, B, and RNDF and RNDI among them
(R138, R139). -/

namespace Sys2Proof.Machine

/-! The data path -/

section ValidPair
variable (c : Config) {data subkey : BitSeq} (h4 : data.length % 4 = 0) (hsize : subkey.length = data.length)
include h4 hsize

theorem length_roundForward_of_wholeGroups : (roundForward c data subkey).length = data.length := by
  rw [length_roundForward, hsize]
  omega

theorem length_roundInverse_of_wholeGroups : (roundInverse c data subkey).length = data.length := by
  rw [length_roundInverse, hsize]
  omega

theorem roundInverse_roundForward (hpos : 1 ≤ data.length) :
    roundInverse c (roundForward c data subkey) subkey = data := by
  have hmixed : (xorSeq data subkey).length = data.length := length_xorSeq_left hsize.symm
  have hmixed4 : (xorSeq data subkey).length % 4 = 0 := by rwa [hmixed]
  have hsub := (length_substitute_of_wholeGroups c hmixed4).trans hmixed
  rw [roundInverse, roundForward, unpermute_permute c (by rwa [hsub]) (by rwa [hsub]), unsubstitute_substitute c hmixed4,
    xorSeq_xorSeq_cancel hsize.symm]

theorem roundForward_roundInverse (hpos : 1 ≤ data.length) :
    roundForward c (roundInverse c data subkey) subkey = data := by
  have hback : (unpermute c data).length = data.length := length_unpermute c data
  have hback4 : (unpermute c data).length % 4 = 0 := by rwa [hback]
  have hunsub := (length_unsubstitute_of_wholeGroups c hback4).trans hback
  rw [roundForward, roundInverse, xorSeq_xorSeq_cancel (hunsub.trans hsize.symm), substitute_unsubstitute c hback4,
    permute_unpermute c hpos h4]

end ValidPair

/-- Settles O55: each part of the round is undone by its inverse, the outermost first. -/
theorem roundInverseUndoesRound : Obligations.RoundInverseUndoesRound := by
  unfold Obligations.RoundInverseUndoesRound
  exact fun c data subkey hpos h4 hsize =>
    ⟨roundInverse_roundForward c h4 hsize hpos, roundForward_roundInverse c h4 hsize hpos⟩

/-! The commands on the pair A, B -/

section Pair
variable {s : State} (f : BitSeq → BitSeq → BitSeq)

theorem pairCommand_of_over (h : s.lmax < s.alen.toNat ∨ s.lmax < s.blen.toNat) :
    pairCommand f s = .next (s.fail .capacityExceeded) := by
  rw [pairCommand, pairCheck_eq, if_pos h, finish]

theorem pairCommand_of_invalid (hafit : s.alen.toNat ≤ s.lmax) (hbfit : s.blen.toNat ≤ s.lmax)
    (h : s.alen.toNat = 0 ∨ s.alen.toNat % 4 ≠ 0 ∨ s.blen.toNat = 0 ∨ s.blen.toNat % 4 ≠ 0) :
    pairCommand f s = .next (s.fail .invalidInput) := by
  rw [pairCommand, pairCheck_eq, if_neg (by omega), if_pos (or_assoc.mpr h), finish]

theorem pairCommand_of_mismatch (hapos : 1 ≤ s.alen.toNat) (hafit : s.alen.toNat ≤ s.lmax) (ha4 : s.alen.toNat % 4 = 0)
    (hbpos : 1 ≤ s.blen.toNat) (hbfit : s.blen.toNat ≤ s.lmax) (hb4 : s.blen.toNat % 4 = 0)
    (hne : s.alen.toNat ≠ s.blen.toNat) : pairCommand f s = .next (s.fail .sizeMismatch) := by
  rw [pairCommand, pairCheck_eq, if_neg (by omega), if_neg (by omega), if_pos hne, finish]

theorem pairCommand_of_valid (hpos : 1 ≤ s.blen.toNat) (hfit : s.blen.toNat ≤ s.lmax) (h4 : s.blen.toNat % 4 = 0)
    (heq : s.alen = s.blen) : pairCommand f s = .next (s.writeResult (f s.aSeq s.bSeq)) := by
  rw [pairCommand, pairCheck_eq, heq, if_neg (by omega), if_neg (by omega), if_neg (by omega), finish]

end Pair

/-- `f` keeps the length of whole groups under a first operand of their length: a round, or a pipeline of rounds. -/
def KeepsLength (f : BitSeq → BitSeq → BitSeq) : Prop :=
  ∀ u v : BitSeq, v.length % 4 = 0 → u.length = v.length → (f u v).length = v.length

theorem KeepsLength.length_eq_blen {f : BitSeq → BitSeq → BitSeq} (hf : KeepsLength f) {s : State}
    (h4 : s.blen.toNat % 4 = 0) (heq : s.alen = s.blen) : (f s.aSeq s.bSeq).length = s.blen.toNat := by
  rw [hf _ _ (by rwa [length_bSeq]) (by rw [length_aSeq, length_bSeq, heq]), length_bSeq]

/-- A command on the pair A, B has the outcomes of R138 if its function keeps the length. -/
theorem pairOutcomes_of_exec {i : Instr} {f : BitSeq → BitSeq → BitSeq} (hexec : ∀ s, exec i s = pairCommand f s)
    (hf : KeepsLength f) : PairOutcomes i f := by
  refine fun s => ⟨fun hover => ?_, fun hafit hbfit hbad => ?_, fun hapos hafit ha4 hbpos hbfit hb4 hne => ?_,
    fun hpos hfit h4 heq => ?_⟩ <;> rw [hexec s]
  · exact ⟨_, pairCommand_of_over f hover, failed_fail s .capacityExceeded⟩
  · exact ⟨_, pairCommand_of_invalid f hafit hbfit hbad, failed_fail s .invalidInput⟩
  · exact ⟨_, pairCommand_of_mismatch f hapos hafit ha4 hbpos hbfit hb4 (mt BitVec.eq_of_toNat_eq hne),
      failed_fail s .sizeMismatch⟩
  · rw [heq] at hpos hfit h4
    have hv := hf.length_eq_blen h4 heq
    have hdone := completed_writeResult (s := s) (v := f s.aSeq s.bSeq) (by rwa [hv])
    exact ⟨_, pairCommand_of_valid f hpos hfit h4 heq, BitVec.eq_of_toNat_eq (hdone.rlen.trans hv), hdone⟩

/-- At the port, a command on the pair run on another one's moved result has that result and the same A as its operands;
so it restores B if its function undoes the other's. -/
theorem exists_run_pair_mvb_pair {i j : Instr} {f g : BitSeq → BitSeq → BitSeq} (hi : ∀ s, exec i s = pairCommand f s)
    (hj : ∀ s, exec j s = pairCommand g s) (hf : KeepsLength f) {s : State}
    (hundo : g s.aSeq (f s.aSeq s.bSeq) = s.bSeq) (hpos : 1 ≤ s.blen.toNat) (hfit : s.blen.toNat ≤ s.lmax)
    (h4 : s.blen.toNat % 4 = 0) (heq : s.alen = s.blen) :
    ∃ t1 t2 t3, exec i s = .next t1 ∧ exec .mvb t1 = .next t2 ∧ exec j t2 = .next t3 ∧ t3.rSeq = s.bSeq := by
  have hv := hf.length_eq_blen h4 heq
  have hvfit : (f s.aSeq s.bSeq).length ≤ s.lmax := by rwa [hv]
  have hblen : (s.writeResult (f s.aSeq s.bSeq)).moveToB.blen = s.blen :=
    BitVec.eq_of_toNat_eq ((toNat_blen_moveToB_writeResult hvfit).trans hv)
  have haseq : (s.writeResult (f s.aSeq s.bSeq)).moveToB.aSeq = s.aSeq := rfl
  refine ⟨_, _, _, (hi s).trans (pairCommand_of_valid f hpos hfit h4 heq), exec_mvb _,
    (hj _).trans (pairCommand_of_valid g (by rwa [hblen]) (by rw [hblen]; exact hfit) (by rwa [hblen])
      (heq.trans hblen.symm)), ?_⟩
  rw [haseq, bSeq_moveToB_writeResult hvfit, hundo]
  exact State.rSeq_writeResult (by rw [length_bSeq]; exact hfit)

/-! The commands RNDF and RNDI -/

theorem keepsLength_roundForward (c : Config) : KeepsLength fun subkey data => roundForward c data subkey :=
  fun _ _ => length_roundForward_of_wholeGroups c

theorem keepsLength_roundInverse (c : Config) : KeepsLength fun subkey data => roundInverse c data subkey :=
  fun _ _ => length_roundInverse_of_wholeGroups c

/-- Settles O32: the outcomes of a command on the pair A, B, for the round. -/
theorem rndfWritesRound : Obligations.RndfWritesRound := by
  unfold Obligations.RndfWritesRound
  exact pairOutcomes_of_exec exec_rndf (keepsLength_roundForward hardware)

/-- At the port, RNDI of a moved result of RNDF under the same A is the inverse round of R137, so it restores B. -/
theorem exists_run_rndf_mvb_rndi {s : State} (hpos : 1 ≤ s.blen.toNat) (hfit : s.blen.toNat ≤ s.lmax)
    (h4 : s.blen.toNat % 4 = 0) (heq : s.alen = s.blen) :
    ∃ t1 t2 t3, exec .rndf s = .next t1 ∧ exec .mvb t1 = .next t2 ∧ exec .rndi t2 = .next t3 ∧ t3.rSeq = s.bSeq := by
  have hundo : roundInverse hardware (roundForward hardware s.bSeq s.aSeq) s.aSeq = s.bSeq :=
    roundInverse_roundForward hardware (by rwa [length_bSeq]) (by rw [length_aSeq, length_bSeq, heq])
      (by rwa [length_bSeq])
  exact exists_run_pair_mvb_pair (f := fun subkey data => roundForward hardware data subkey)
    (g := fun subkey data => roundInverse hardware data subkey) exec_rndf exec_rndi (keepsLength_roundForward hardware)
    hundo hpos hfit h4 heq

/-- Settles O33: RNDI's outcomes, and the law at the port. -/
theorem rndiWritesAndUndoesRndf : Obligations.RndiWritesAndUndoesRndf := by
  unfold Obligations.RndiWritesAndUndoesRndf
  exact ⟨pairOutcomes_of_exec exec_rndi (keepsLength_roundInverse hardware), fun _ => exists_run_rndf_mvb_rndi⟩

end Sys2Proof.Machine
end

section
/-! SUPPORT. ENC and DEC: the two pipelines of four rounds (45_enc_dec.md R140 to R142), their function level, and their
commands (R143, R144). -/

namespace Sys2Proof.Machine

/-! The pipelines -/

/-- Steps that are each undone by their own inverse on what `P` describes are undone by their inverses in reverse order. -/
theorem foldl_reverse_foldl {α β : Type} {P : α → Prop} {f g : α → β → α} (hf : ∀ a b, P a → P (f a b))
    (hgf : ∀ a b, P a → g (f a b) b = a) (bs : List β) {a : α} (ha : P a) :
    bs.reverse.foldl g (bs.foldl f a) = a := by
  induction bs generalizing a with
  | nil => rfl
  | cons b bs ih =>
    simp only [List.reverse_cons, List.foldl_append, List.foldl_cons, List.foldl_nil, ih (hf a b ha), hgf a b ha]

section Pipeline
variable (c : Config) {key data : BitSeq} (h4 : key.length % 4 = 0) (hsize : data.length = key.length)
include h4 hsize

theorem length_roundForward_deriveSubkey (r : Byte) :
    (roundForward c data (deriveSubkey key r)).length = key.length :=
  (length_roundForward_of_wholeGroups c (by rwa [hsize]) ((length_deriveSubkey key r).trans hsize.symm)).trans hsize

theorem length_roundInverse_deriveSubkey (r : Byte) :
    (roundInverse c data (deriveSubkey key r)).length = key.length :=
  (length_roundInverse_of_wholeGroups c (by rwa [hsize]) ((length_deriveSubkey key r).trans hsize.symm)).trans hsize

theorem length_encrypt : (encrypt c key data).length = key.length := by
  rw [encrypt]
  exact List.foldlRecOn (motive := fun data : BitSeq => data.length = key.length) _ _ hsize fun _ h _ _ =>
    length_roundForward_deriveSubkey c h4 h _

theorem length_decrypt : (decrypt c key data).length = key.length := by
  rw [decrypt]
  exact List.foldlRecOn (motive := fun data : BitSeq => data.length = key.length) _ _ hsize fun _ h _ _ =>
    length_roundInverse_deriveSubkey c h4 h _

/-- Each of DEC's rounds meets the subkey of the last round of ENC that is not yet undone (R142). -/
theorem decrypt_encrypt (hpos : 1 ≤ key.length) : decrypt c key (encrypt c key data) = data := by
  rw [decrypt, encrypt]
  refine foldl_reverse_foldl (P := fun data => data.length = key.length) (fun _ _ h => ?_) (fun _ _ h => ?_) _ hsize
  · exact length_roundForward_deriveSubkey c h4 h _
  · exact roundInverse_roundForward c (by rwa [h]) ((length_deriveSubkey key _).trans h.symm) (by rwa [h])

/-- DEC takes the rounds in reverse order, so ENC takes DEC's rounds in reverse order. -/
theorem encrypt_decrypt (hpos : 1 ≤ key.length) : encrypt c key (decrypt c key data) = data := by
  rw [encrypt, ← List.reverse_reverse roundIndices, decrypt]
  refine foldl_reverse_foldl (P := fun data => data.length = key.length) (fun _ _ h => ?_) (fun _ _ h => ?_) _ hsize
  · exact length_roundInverse_deriveSubkey c h4 h _
  · exact roundForward_roundInverse c (by rwa [h]) ((length_deriveSubkey key _).trans h.symm) (by rwa [h])

end Pipeline

/-! The function level -/

section FuncPair
variable (f : BitSeq → BitSeq → BitSeq)

theorem funcPair_of_not_bit {key data : List Int} (h : ∃ x, (x ∈ key ∨ x ∈ data) ∧ x ≠ 0 ∧ x ≠ 1) :
    funcPair f key data = .error .invalidInput := by
  obtain ⟨x, hkey | hdata, hx⟩ := h
  · rw [funcPair, checkBits_of_not_bit ⟨x, hkey, hx⟩]
  · have hbad := checkBits_of_not_bit ⟨x, hdata, hx⟩
    obtain ⟨bits, rfl⟩ | herror := checkBits_cases key
    · rw [funcPair, checkBits_toInts, hbad]
    · rw [funcPair, herror]

variable {k d : BitSeq}

/-- The checks of `ENC` on bits are the port's pair checks at a capacity that holds both operands. -/
theorem funcPair_eq_checkedValue : funcPair f (toInts k) (toInts d) =
    checkedValue (pairCheck (max k.length d.length) k.length d.length) (f k d) :=
  funcPair_toInts f (Nat.le_max_left _ _) (Nat.le_max_right _ _)

theorem funcPair_of_invalid (h : k.length = 0 ∨ k.length % 4 ≠ 0 ∨ d.length = 0 ∨ d.length % 4 ≠ 0) :
    funcPair f (toInts k) (toInts d) = .error .invalidInput := by
  rw [funcPair_eq_checkedValue, pairCheck_eq, if_neg (by omega), if_pos (or_assoc.mpr h), checkedValue]

theorem funcPair_of_mismatch (hkpos : 1 ≤ k.length) (hk4 : k.length % 4 = 0) (hdpos : 1 ≤ d.length)
    (hd4 : d.length % 4 = 0) (hne : k.length ≠ d.length) :
    funcPair f (toInts k) (toInts d) = .error .sizeMismatch := by
  rw [funcPair_eq_checkedValue, pairCheck_eq, if_neg (by omega), if_neg (by omega), if_pos hne, checkedValue]

theorem funcPair_of_valid (hpos : 1 ≤ k.length) (h4 : k.length % 4 = 0) (heq : k.length = d.length) :
    funcPair f (toInts k) (toInts d) = .ok (f k d) := by
  rw [funcPair_eq_checkedValue, pairCheck_eq, if_neg (by omega), if_neg (by omega), if_neg (not_not_intro heq),
    checkedValue]

theorem funcPairOutcomes_funcPair : FuncPairOutcomes (funcPair f) f := by
  refine fun _ _ => ⟨funcPair_of_not_bit f, ?_⟩
  rintro k d rfl rfl
  exact ⟨funcPair_of_invalid f, funcPair_of_mismatch f, funcPair_of_valid f⟩

end FuncPair

/-- Settles O57: both operations are the checked pair of a pipeline, which is its four rounds written out. -/
theorem encAndDecAtFunctionLevel : Obligations.EncAndDecAtFunctionLevel := by
  unfold Obligations.EncAndDecAtFunctionLevel
  exact fun c => ⟨funext₂ (encrypt_eq c) ▸ funcPairOutcomes_funcPair (encrypt c),
    funext₂ (decrypt_eq c) ▸ funcPairOutcomes_funcPair (decrypt c)⟩

/-- Settles O58: both values are blocks of the key's length, so they pass the checks, and each pipeline undoes the other. -/
theorem decryptionInvertsEncryption : Obligations.DecryptionInvertsEncryption := by
  unfold Obligations.DecryptionInvertsEncryption
  intro c key message hpos h4 hsize
  rw [← hsize] at hpos h4 ⊢
  have hct := length_encrypt c h4 hsize.symm
  have hpt := length_decrypt c h4 hsize.symm
  refine ⟨encrypt c key message, decrypt c key message, hct, hpt, funcPair_of_valid _ hpos h4 hsize, ?_,
    funcPair_of_valid _ hpos h4 hsize, ?_⟩
  · rw [funcDec, funcPair_of_valid _ hpos h4 hct.symm, decrypt_encrypt c h4 hsize.symm hpos]
  · rw [funcEnc, funcPair_of_valid _ hpos h4 hpt.symm, encrypt_decrypt c h4 hsize.symm hpos]

/-! The commands ENC and DEC -/

theorem keepsLength_encrypt (c : Config) : KeepsLength (encrypt c) :=
  fun _ _ h4 hsize => (length_encrypt c (by rwa [hsize]) hsize.symm).trans hsize

theorem keepsLength_decrypt (c : Config) : KeepsLength (decrypt c) :=
  fun _ _ h4 hsize => (length_decrypt c (by rwa [hsize]) hsize.symm).trans hsize

/-- Settles O34: the outcomes of a command on the pair A, B, for the pipeline of the four rounds. -/
theorem encWritesCiphertext : Obligations.EncWritesCiphertext := by
  unfold Obligations.EncWritesCiphertext
  exact funext₂ (encrypt_eq hardware) ▸ pairOutcomes_of_exec exec_enc (keepsLength_encrypt hardware)

/-- At the port, DEC of a moved result of ENC under the same A is the pipeline of R142, so it restores B. -/
theorem exists_run_enc_mvb_dec {s : State} (hpos : 1 ≤ s.blen.toNat) (hfit : s.blen.toNat ≤ s.lmax)
    (h4 : s.blen.toNat % 4 = 0) (heq : s.alen = s.blen) :
    ∃ t1 t2 t3, exec .enc s = .next t1 ∧ exec .mvb t1 = .next t2 ∧ exec .dec t2 = .next t3 ∧ t3.rSeq = s.bSeq := by
  have hundo : decrypt hardware s.aSeq (encrypt hardware s.aSeq s.bSeq) = s.bSeq :=
    decrypt_encrypt hardware (by rwa [length_aSeq, heq]) (by rw [length_aSeq, length_bSeq, heq])
      (by rwa [length_aSeq, heq])
  exact exists_run_pair_mvb_pair exec_enc exec_dec (keepsLength_encrypt hardware) hundo hpos hfit h4 heq

/-- Settles O35: DEC's outcomes, and the law at the port. -/
theorem decWritesAndUndoesEnc : Obligations.DecWritesAndUndoesEnc := by
  unfold Obligations.DecWritesAndUndoesEnc
  exact ⟨funext₂ (decrypt_eq hardware) ▸ pairOutcomes_of_exec exec_dec (keepsLength_decrypt hardware),
    fun _ => exists_run_enc_mvb_dec⟩

end Sys2Proof.Machine
end

section
/-! SUPPORT. The transfers MVA and MVB (46_transfer.md R150, R151). -/

namespace Sys2Proof.Machine

theorem State.aSeq_moveToA (s : State) : s.moveToA.aSeq = s.rSeq := by
  rw [aSeq, rSeq, moveToA_a, moveToA_alen]

theorem State.bSeq_moveToB (s : State) : s.moveToB.bSeq = s.rSeq := by
  rw [bSeq, rSeq, moveToB_b, moveToB_blen]

/-- Settles O36: the written operand holds the words and the length of the result, so it has its sequence too; the rest is
the frame of the command. -/
theorem mvaAndMvbCopyResult : Obligations.MvaAndMvbCopyResult := by
  unfold Obligations.MvaAndMvbCopyResult
  constructor
  · intro s
    obtain ⟨-, hframe, hnlen, hresult, hdone, hplatform⟩ := commandFrame .mva s _ (exec_mva s)
    obtain ⟨hb, hblen⟩ := hframe (by decide)
    obtain ⟨hr, hrlen⟩ := hresult (.inl rfl)
    have herr : s.moveToA.status.err = 0 := by rw [State.moveToA_status, Status.completed_err]
    exact ⟨_, exec_mva s, s.moveToA_a, s.moveToA_alen, s.aSeq_moveToA, herr, hdone, hr, hrlen, hb, hblen, hnlen, hplatform⟩
  · intro s
    obtain ⟨hframe, -, hnlen, hresult, hdone, hplatform⟩ := commandFrame .mvb s _ (exec_mvb s)
    obtain ⟨ha, halen⟩ := hframe (by decide)
    obtain ⟨hr, hrlen⟩ := hresult (.inr rfl)
    have herr : s.moveToB.status.err = 0 := by rw [State.moveToB_status, Status.completed_err]
    exact ⟨_, exec_mvb s, s.moveToB_b, s.moveToB_blen, s.bSeq_moveToB, herr, hdone, hr, hrlen, ha, halen, hnlen, hplatform⟩

end Sys2Proof.Machine
end

section
/-! SUPPORT. The abnormal end and the reset (60_exceptions.md R164, 70_reset_and_hazards.md R190), and the error code of every
command by the table of R162 in the order of R163. -/

namespace Sys2Proof.Machine

/-- Settles O24: the abnormal end with everything it leaves unchanged. -/
theorem failEmptiesR : Obligations.FailEmptiesR := by
  unfold Obligations.FailEmptiesR
  exact failed_fail

/-- Settles O12: the reset leaves wide registers of NW zero words. -/
theorem hostResetClearsEveryRegister : Obligations.HostResetClearsEveryRegister := by
  unfold Obligations.HostResetClearsEveryRegister
  intro s rest h
  have hstep : step s = .next ({ s with pending := rest } : State).hostReset := by rw [step_cons h, perform]
  have hsized := ({ s with pending := rest } : State).sized_hostReset
  refine ⟨_, hstep, hsized.a, hsized.b, hsized.r, fun k _ => ?_, State.hostReset_alen _, State.hostReset_blen _,
    State.hostReset_nlen _, State.hostReset_rlen _, ?_⟩
  · simp only [State.hostReset_a, State.hostReset_b, State.hostReset_r, getD_replicate_zero, and_self]
  · rw [State.hostReset_status]
    decide

/-! The error table -/

/-- The code `err` is the one the error table gives under a command's three conditions, the first that holds
(60_exceptions.md R162, R163). -/
def FollowsErrorTable (err : BitVec 3) (capacity input size : Prop) : Prop :=
  (err = 4 ↔ capacity) ∧ (err = 1 ↔ ¬ capacity ∧ input) ∧ (err = 2 ↔ ¬ capacity ∧ ¬ input ∧ size) ∧
    (err = 0 ↔ ¬ capacity ∧ ¬ input ∧ ¬ size)

/-- The checks of a command in the order of R163, each under its condition. -/
def orderedChecks (capacity input size : Prop) [Decidable capacity] [Decidable input] [Decidable size] :
    Option ErrorKind :=
  if capacity then some .capacityExceeded
  else if input then some .invalidInput
  else if size then some .sizeMismatch
  else none

/-- A command that runs the ordered checks reports the code of the table. -/
theorem finish_orderedChecks (capacity input size : Prop) [Decidable capacity] [Decidable input] [Decidable size]
    (value : State → BitSeq) (s : State) :
    ∃ t, finish (orderedChecks capacity input size) value s = .next t ∧
      FollowsErrorTable t.status.err capacity input size := by
  unfold orderedChecks
  split
  case isTrue hcap => exact ⟨_, rfl, by simp [FollowsErrorTable, hcap]⟩
  case isFalse hcap =>
    split
    case isTrue hin => exact ⟨_, rfl, by simp [FollowsErrorTable, hcap, hin]⟩
    case isFalse hin =>
      split
      case isTrue hsize => exact ⟨_, rfl, by simp [FollowsErrorTable, hcap, hin, hsize]⟩
      case isFalse hsize => exact ⟨_, rfl, by simp [FollowsErrorTable, hcap, hin, hsize]⟩

/-! Each check of a command is the ordered checks under the conditions of its row; an empty column never holds. -/

theorem expandCheck_eq_orderedChecks (l m n : Nat) :
    expandCheck l m n = orderedChecks (l < m ∨ l < n) False False := by
  simp only [expandCheck_eq, orderedChecks, if_false]

theorem genCheck_eq_orderedChecks (l m : Nat) : genCheck l m = orderedChecks (l < 4 * m) (m = 0) False := by
  simp only [genCheck_eq, orderedChecks, if_false]

theorem deriveCheck_eq_orderedChecks (l m : Nat) : deriveCheck l m = orderedChecks (l < m) False False := by
  simp only [deriveCheck_eq, orderedChecks, if_false]

theorem streamCheck_eq_orderedChecks (l n : Nat) :
    streamCheck l n = orderedChecks (l < n) (n = 0 ∨ n % 4 ≠ 0) False := by
  simp only [streamCheck_eq, orderedChecks, if_false]

theorem pairCheck_eq_orderedChecks (l m n : Nat) :
    pairCheck l m n = orderedChecks (l < m ∨ l < n) ((m = 0 ∨ m % 4 ≠ 0) ∨ n = 0 ∨ n % 4 ≠ 0) (m ≠ n) := by
  rw [pairCheck_eq, orderedChecks]

/-- A transfer has an empty row in the error table (46_transfer.md R150, R151). -/
theorem completed_followsErrorTable : FollowsErrorTable Status.completed.err False False False := by
  simp [FollowsErrorTable]

/-- Settles O22: every command runs the ordered checks of its row, and the transfers run none. -/
theorem errorTableAndPriority : Obligations.ErrorTableAndPriority := by
  unfold Obligations.ErrorTableAndPriority
  intro i s hwf
  change ∃ t, exec i s = .next t ∧
    FollowsErrorTable t.status.err (CapacityCondition i s) (InputCondition i s) (SizeCondition i s)
  cases i with
  | expand =>
    rw [exec_expand, expandCheck_eq_orderedChecks]
    exact finish_orderedChecks _ _ _ _ s
  | gen =>
    rw [exec_gen, genCheck_eq_orderedChecks]
    exact finish_orderedChecks _ _ _ _ s
  | derive ridx =>
    rw [exec_derive (of_decide_eq_true hwf), deriveCheck_eq_orderedChecks]
    exact finish_orderedChecks _ _ _ _ s
  | sub | unsub | perm | unperm =>
    simp only [exec_sub, exec_unsub, exec_perm, exec_unperm, streamCheck_eq_orderedChecks]
    exact finish_orderedChecks _ _ _ _ s
  | rndf | rndi | enc | dec =>
    simp only [exec_rndf, exec_rndi, exec_enc, exec_dec, pairCheck_eq_orderedChecks]
    exact finish_orderedChecks _ _ _ _ s
  | mva => exact ⟨_, exec_mva s, completed_followsErrorTable⟩
  | mvb => exact ⟨_, exec_mvb s, completed_followsErrorTable⟩

end Sys2Proof.Machine
end

section
/-! SUPPORT. The construction check (60_exceptions.md R167, 42_sbox.md R120, 43_pbox.md R127): which tables pass it, and that
no command reports its error. -/

namespace Sys2Proof.Machine

/-! What the check asks of a table -/

theorem isPermutation_iff {t : List Nat} : isPermutation t = true ↔ (∀ x ∈ t, x < t.length) ∧ t.Nodup := by
  simp only [isPermutation, Bool.and_eq_true, List.all_eq_true, decide_eq_true_eq]

/-- The images of 0..L-1 are a permutation exactly when they stay in 0..L-1 and no two are equal. -/
theorem isPermutation_map_range_iff {f : Nat → Nat} {L : Nat} :
    isPermutation ((List.range L).map f) = true ↔ (∀ i < L, f i < L) ∧ ∀ i j, i < j → j < L → f i ≠ f j := by
  rw [isPermutation_iff, List.Nodup, List.pairwise_iff_getElem]
  simp only [List.length_map, List.length_range, List.getElem_map, List.getElem_range, List.forall_mem_map,
    List.mem_range]
  exact and_congr_right fun _ =>
    ⟨fun h i j hij hj => h i j (hij.trans hj) hj hij, fun h i j _ hj hij => h i j hij hj⟩

theorem mem_blockLengths {lmax L : Nat} : L ∈ blockLengths lmax ↔ 4 ≤ L ∧ L % 4 = 0 ∧ L ≤ lmax := by
  simp only [blockLengths, List.mem_map, List.mem_range]
  constructor
  · rintro ⟨k, hk, rfl⟩
    omega
  · rintro ⟨h, h4, hfit⟩
    exact ⟨L / 4 - 1, by omega, by omega⟩

/-! What the check answers -/

section Check
variable {lmax : Nat} {sbox : List Nat} {perm : Nat → Nat → Nat}

theorem checkTables_eq_ok (hlen : sbox.length = 16) (hsbox : isPermutation sbox = true)
    (hperm : ∀ L, 4 ≤ L → L % 4 = 0 → L ≤ lmax → isPermutation ((List.range L).map (perm L)) = true) :
    checkTables lmax sbox perm = .ok () := by
  refine if_pos ⟨hlen, hsbox, List.all_eq_true.2 fun L hL => ?_⟩
  obtain ⟨h, h4, hfit⟩ := mem_blockLengths.1 hL
  exact hperm L h h4 hfit

theorem checkTables_of_bad_sbox (h : sbox.length = 16 → isPermutation sbox ≠ true) :
    checkTables lmax sbox perm = .error .configurationError :=
  if_neg fun ⟨hlen, hsbox, _⟩ => h hlen hsbox

theorem checkTables_of_bad_perm {L : Nat} (hL : L ∈ blockLengths lmax)
    (h : isPermutation ((List.range L).map (perm L)) ≠ true) :
    checkTables lmax sbox perm = .error .configurationError :=
  if_neg fun ⟨_, _, hperm⟩ => h (List.all_eq_true.1 hperm L hL)

end Check

/-! The tables of this hardware -/

theorem eq_of_perm_eq (b : PBox) {L i j : Nat} (hpos : 1 ≤ L) (h4 : L % 4 = 0) (hi : i < L) (hj : j < L)
    (h : b.perm L i = b.perm L j) : i = j := by
  rw [← b.inv_perm L i hpos h4 hi, h, b.inv_perm L j hpos h4 hj]

/-- The family of a P-box is a permutation at every valid block length (00_scope.md R10). -/
theorem isPermutation_pbox (b : PBox) {L : Nat} (hpos : 1 ≤ L) (h4 : L % 4 = 0) :
    isPermutation ((List.range L).map (b.perm L)) = true :=
  isPermutation_map_range_iff.2 ⟨fun i hi => b.perm_lt L i hpos h4 hi,
    fun _ _ hij hj h => hij.ne (eq_of_perm_eq b hpos h4 (hij.trans hj) hj h)⟩

theorem checkTables_hardware (lmax : Nat) :
    checkTables lmax (sboxTable.toList.map Fin.val) permIndex = .ok () :=
  checkTables_eq_ok (by decide) (by decide) fun _ hL h4 _ => isPermutation_pbox hardwarePBox (by omega) h4

/-! No command -/

/-- ERR is the code of a kind that a command reports, or 0. -/
theorem err_ne_configurationError_of_exec {i : Instr} {s t : State} (h : exec i s = .next t) : t.status.err ≠ 3 := by
  obtain ⟨k, rfl | rfl | rfl, rfl⟩ | ⟨v, -, rfl⟩ | ⟨-, rfl⟩ | ⟨-, rfl⟩ := exec_cases h <;> simp

/-- Settles O60: the check asks exactly that the tables are permutations, those of this hardware are, and a command never
fails with the check's kind. -/
theorem configurationErrorOnlyAtConstruction : Obligations.ConfigurationErrorOnlyAtConstruction := by
  unfold Obligations.ConfigurationErrorOnlyAtConstruction
  refine ⟨fun c => checkTables_hardware c.lmax, fun c t perm hbad => checkTables_of_bad_sbox fun hlen hsbox => ?_,
    fun c t perm L hL h4 hfit hbad => checkTables_of_bad_perm (mem_blockLengths.2 ⟨hL, h4, hfit⟩) fun hperm => ?_,
    fun i s t => err_ne_configurationError_of_exec⟩
  · obtain ⟨hlt, hnodup⟩ := isPermutation_iff.1 hsbox
    rw [hlen] at hlt
    obtain hlen' | ⟨x, hx, hge⟩ | hdup := hbad
    · exact hlen' hlen
    · exact absurd (hlt x hx) (Nat.not_lt.2 hge)
    · exact hdup hnodup
  · obtain ⟨hlt, hinj⟩ := isPermutation_map_range_iff.1 hperm
    obtain ⟨i, hi, hge⟩ | ⟨i, j, hij, hj, heq⟩ := hbad
    · exact absurd (hlt i hi) (Nat.not_lt.2 hge)
    · exact hinj i j hij hj heq

end Sys2Proof.Machine
end
